-- ==== Sys2Proof/Word.lean ====
section
/-! DEFINITION. The value types of the block (00_scope.md R12, R14): a pixel component is 8 bits, a host register 32. -/

namespace Sys2Proof

/-- One pixel component, one beat of a stream (COMP_BITS = STREAM_BITS = 8, R12). -/
abbrev Byte := BitVec 8

/-- A 16-bit header field or row counter (R24, R29). -/
abbrev Half := BitVec 16

/-- One host register or command word (REG_BITS = 32, R12). -/
abbrev Word := BitVec 32

/-- The byte offset of a host register inside the 32-byte window (REG_OFFSET_BITS = 5, R12). -/
abbrev Offset := BitVec 5

end Sys2Proof
end

