-- ==== Sys2Proof/Syntax.lean ====
section
/-! DEFINITION. The events the host can issue, as syntax (00_scope.md R19; spec/opcode_table.json): `Instr` is the
decoded event, `Transaction` its bits on the port that carries it, `Pins` the levels of the block's input signals at
one rising edge of `clk`. -/

namespace Sys2Proof

/-- The eight host registers of the window (10_state.md R35). -/
inductive HostReg where
  | cmd | status | format | dim | outDim | progress | param | rsvd
  deriving DecidableEq, Repr

/-- A stream beat `{LAST, DATA[7:0]}` (30_encoding.md R74). -/
structure Beat where
  data : Byte
  last : Bool
  deriving DecidableEq, Repr

/-- One constructor per row of spec/opcode_table.json. -/
inductive Instr where
  /-- NOP (R79). -/
  | nop
  /-- SET_FORMAT bpp, type (R80). -/
  | setFormat (bpp imgType : Byte)
  /-- SET_WIDTH w (R81). -/
  | setWidth (w : Half)
  /-- SET_HEIGHT h (R82). -/
  | setHeight (h : Half)
  /-- START (R83). -/
  | start
  /-- ABORT (R84). -/
  | abort
  /-- ILLEGAL, the table's first row of that name: OP 0x6 or 0x7, and, by its note, every other word that no row of
  the table matches (a known OP with a must-be-zero bit set, R72, R85). -/
  | illegal (w : Word)
  /-- ILLEGAL, the table's second row of that name: OP 0x8 to 0xF (R72, R85). -/
  | illegalHigh (w : Word)
  /-- RD CMD (R87). -/
  | rdCmd
  /-- RD STATUS (R88). -/
  | rdStatus
  /-- RD FORMAT (R89). -/
  | rdFormat
  /-- RD DIM (R90). -/
  | rdDim
  /-- RD OUT_DIM (R91). -/
  | rdOutDim
  /-- RD PROGRESS (R92). -/
  | rdProgress
  /-- RD PARAM (R93). -/
  | rdParam
  /-- RD RSVD (R94). -/
  | rdRsvd
  /-- A write at an offset other than 0x00 (R86). -/
  | wrOther (r : HostReg) (data : Word)
  /-- The host offers a byte on the input stream for one cycle (R100). -/
  | inBeat (data : Byte) (last : Bool)
  /-- The host is ready to take a byte from the output stream for one cycle (R114). -/
  | outBeat
  /-- `rst` = 1 at a rising edge (R137). -/
  | reset
  deriving DecidableEq, Repr

/-- One host event as the bits of the port that carries it (R47, R49, R73, R74). -/
inductive Transaction where
  | reset
  | regRead (addr : Offset)
  | regWrite (addr : Offset) (data : Word)
  | inBeat (beat : BitVec 9)
  | outBeat
  deriving DecidableEq, Repr

/-- The levels of the block's input signals at one rising edge of `clk` (20_memory.md R47). -/
structure Pins where
  rst      : Bool
  regWe    : Bool
  regRe    : Bool
  regAddr  : Offset
  regWdata : Word
  inValid  : Bool
  inData   : Byte
  inLast   : Bool
  outReady : Bool
  deriving DecidableEq, Repr

/-- The levels of the block's output signals during one cycle (20_memory.md R47). -/
structure PortsOut where
  regRdata : Word
  inReady  : Bool
  outValid : Bool
  outData  : Byte
  outLast  : Bool
  deriving DecidableEq, Repr

end Sys2Proof
end

