-- ==== Sys2Proof/WellFormed.lean ====
section
/-! DEFINITION. Which terms of `Instr` stand for an event the host can issue (30_encoding.md R70 to R73). -/

namespace Sys2Proof

/-- The opcode field OP = `w[31:28]` of a command word (R68). -/
def opField (w : Word) : BitVec 4 := w.extractLsb' 28 4

/-- OP names a command and the word's must-be-zero bits are zero (`CZ`: bits 27:0; `CF` and `CI`: bits 27:16), so that the
word is none of the ILLEGAL words of R72. -/
def isCommandWord (w : Word) : Bool :=
  match (opField w).toNat with
  | 0 | 4 | 5 => w.extractLsb' 0 28 = 0#28
  | 1 | 2 | 3 => w.extractLsb' 16 12 = 0#12
  | _ => false

/-- A term is well formed when some transaction of the host stands for it. -/
def Instr.wellFormed : Instr → Bool
  | .illegal w     => !w.msb && !isCommandWord w
  | .illegalHigh w => w.msb
  | .wrOther r _   => r ≠ .cmd
  | .nop | .setFormat _ _ | .setWidth _ | .setHeight _ | .start | .abort
  | .rdCmd | .rdStatus | .rdFormat | .rdDim | .rdOutDim | .rdProgress | .rdParam | .rdRsvd
  | .inBeat _ _ | .outBeat | .reset => true

end Sys2Proof
end

