-- ==== Sys2Proof/Decode.lean ====
section
/-! DEFINITION. Decoding and encoding of the host's events (30_encoding.md R68 to R75): a command word by its opcode,
a register access by its offset, a beat by its nine bits; then the encoder, and the numbering of
spec/opcode_table.json. -/

namespace Sys2Proof

/-- Why a transaction stands for no event of the model. -/
inductive DecodeError where
  /-- `reg_addr[1:0]` is not 00 (20_memory.md R57: "A model refuses such an event"). -/
  | misalignedOffset
  deriving DecidableEq, Repr

/-- `w[31:28]`, which selects the command (R70, R71). -/
def commandOp (w : Word) : BitVec 4 := w.extractLsb' 28 4

/-- R71, clause by clause; every 32-bit word decodes, and nothing but the word is read. -/
def decodeCommand (w : Word) : Instr :=
  match (commandOp w).toNat with
  | 0 => if w.extractLsb' 0 28 = 0#28 then .nop else .illegal w
  | 1 => if w.extractLsb' 16 12 = 0#12 then .setFormat (w.extractLsb' 0 8) (w.extractLsb' 8 8) else .illegal w
  | 2 => if w.extractLsb' 16 12 = 0#12 then .setWidth (w.extractLsb' 0 16) else .illegal w
  | 3 => if w.extractLsb' 16 12 = 0#12 then .setHeight (w.extractLsb' 0 16) else .illegal w
  | 4 => if w.extractLsb' 0 28 = 0#28 then .start else .illegal w
  | 5 => if w.extractLsb' 0 28 = 0#28 then .abort else .illegal w
  | 6 | 7 => .illegal w
  | _ => .illegalHigh w

/-- "`reg_addr[4:2]` selects one of the eight registers" (R73). -/
def regOfIndex (i : BitVec 3) : HostReg :=
  match i.toNat with
  | 0 => .cmd
  | 1 => .status
  | 2 => .format
  | 3 => .dim
  | 4 => .outDim
  | 5 => .progress
  | 6 => .param
  | _ => .rsvd

/-- The byte offset of each register (10_state.md R35). -/
def regOffset : HostReg → Offset
  | .cmd => 0x00#5
  | .status => 0x04#5
  | .format => 0x08#5
  | .dim => 0x0C#5
  | .outDim => 0x10#5
  | .progress => 0x14#5
  | .param => 0x18#5
  | .rsvd => 0x1C#5

/-- `reg_addr[1:0]` must be 00 (R57, R73). -/
def aligned (addr : Offset) : Bool := addr.extractLsb' 0 2 = 0#2

/-- The register an aligned offset selects (R73). -/
def regAt (addr : Offset) : HostReg := regOfIndex (addr.extractLsb' 2 3)

/-- Reads are defined at every offset (R73). -/
def readInstr : HostReg → Instr
  | .cmd => .rdCmd
  | .status => .rdStatus
  | .format => .rdFormat
  | .dim => .rdDim
  | .outDim => .rdOutDim
  | .progress => .rdProgress
  | .param => .rdParam
  | .rsvd => .rdRsvd

/-- "A write at 0x00 is a command. A write at any other offset is ignored" (R73). -/
def writeInstr (r : HostReg) (data : Word) : Instr :=
  if r = .cmd then decodeCommand data else .wrOther r data

/-- `{LAST, DATA[7:0]}` as nine bits (R74). -/
def packBeat (b : Beat) : BitVec 9 := BitVec.ofBool b.last ++ b.data

/-- The beat that nine bits hold (R74). -/
def unpackBeat (v : BitVec 9) : Beat := { data := v.extractLsb' 0 8, last := v.getLsbD 8 }

/-- The event a transaction stands for; only a misaligned register offset stands for none (R71, R73, R74). -/
def decode : Transaction → Except DecodeError Instr
  | .reset => .ok .reset
  | .regRead addr => if aligned addr then .ok (readInstr (regAt addr)) else .error .misalignedOffset
  | .regWrite addr data => if aligned addr then .ok (writeInstr (regAt addr) data) else .error .misalignedOffset
  | .inBeat v => .ok (.inBeat (unpackBeat v).data (unpackBeat v).last)
  | .outBeat => .ok .outBeat

/-- Format CZ: an opcode and 28 zero bits (R68). -/
def wordCZ (op : BitVec 4) : Word := op ++ 0#28

/-- Format CF: SET_FORMAT's opcode, 12 zero bits, TYPE, BPP (R68). -/
def wordCF (imgType bpp : Byte) : Word := 0x1#4 ++ 0#12 ++ imgType ++ bpp

/-- Format CI: an opcode, 12 zero bits, IMM16 (R68). -/
def wordCI (op : BitVec 4) (imm : Half) : Word := op ++ 0#12 ++ imm

/-- The transaction that carries an event, from the encoding columns of R68, R70, R73, R74 and R76. -/
def encode : Instr → Transaction
  | .nop => .regWrite (regOffset .cmd) (wordCZ 0x0#4)
  | .setFormat bpp imgType => .regWrite (regOffset .cmd) (wordCF imgType bpp)
  | .setWidth w => .regWrite (regOffset .cmd) (wordCI 0x2#4 w)
  | .setHeight h => .regWrite (regOffset .cmd) (wordCI 0x3#4 h)
  | .start => .regWrite (regOffset .cmd) (wordCZ 0x4#4)
  | .abort => .regWrite (regOffset .cmd) (wordCZ 0x5#4)
  | .illegal w => .regWrite (regOffset .cmd) w
  | .illegalHigh w => .regWrite (regOffset .cmd) w
  | .rdCmd => .regRead (regOffset .cmd)
  | .rdStatus => .regRead (regOffset .status)
  | .rdFormat => .regRead (regOffset .format)
  | .rdDim => .regRead (regOffset .dim)
  | .rdOutDim => .regRead (regOffset .outDim)
  | .rdProgress => .regRead (regOffset .progress)
  | .rdParam => .regRead (regOffset .param)
  | .rdRsvd => .regRead (regOffset .rsvd)
  | .wrOther r data => .regWrite (regOffset r) data
  | .inBeat data last => .inBeat (packBeat { data := data, last := last })
  | .outBeat => .outBeat
  | .reset => .reset

/-- A cycle in which the host drives nothing: no strobe, no offered byte, no reset. -/
def quietPins : Pins :=
  { rst := false, regWe := false, regRe := false, regAddr := 0#5, regWdata := 0#32,
    inValid := false, inData := 0#8, inLast := false, outReady := false }

/-- The input levels of a cycle that carries one transaction and nothing else (R47, R48, R49). -/
def Transaction.pins : Transaction → Pins
  | .reset => { quietPins with rst := true }
  | .regRead addr => { quietPins with regRe := true, regAddr := addr }
  | .regWrite addr data => { quietPins with regWe := true, regAddr := addr, regWdata := data }
  | .inBeat v => { quietPins with inValid := true, inData := (unpackBeat v).data, inLast := (unpackBeat v).last }
  | .outBeat => { quietPins with outReady := true }

/-- Byte lane k of a register value: bits 8k+7 to 8k (20_memory.md R53). -/
def byteLane (w : Word) (k : Fin 4) : Byte := w.extractLsb' (8 * k.val) 8

/-- The register value whose byte lanes 0 to 3 are given: the little-endian joining of R53. -/
def ofByteLanes (b0 b1 b2 b3 : Byte) : Word := b3 ++ b2 ++ b1 ++ b0

/-- The transaction whose bits spec/opcode_table.json numbers as `w` in a row of `nbits` bits (in whole bytes):
32 bits are a command word, 8 bits a register offset (its five bits) or the one bit `rst` = 1, 16 bits an input beat
(its nine bits). The table's WR_OTHER has the bits of a read and its OUT_BEAT those of an input beat, on another port,
so those two have no number of their own here (notes/assumptions/6.md). -/
def tableTransaction (nbits w : Nat) : Option Transaction :=
  if nbits = 32 ∧ w < 2 ^ 32 then some (.regWrite (regOffset .cmd) (BitVec.ofNat 32 w))
  else if nbits = 16 ∧ w < 2 ^ 9 then some (.inBeat (BitVec.ofNat 9 w))
  else if nbits = 8 ∧ w = 1 then some .reset
  else if nbits = 8 ∧ w < 2 ^ 5 then some (.regRead (BitVec.ofNat 5 w))
  else none

/-- The instruction the decoder reads from a table word. -/
def decodeTableWord (nbits w : Nat) : Option Instr :=
  match tableTransaction nbits w with
  | some t => (decode t).toOption
  | none => none

end Sys2Proof
end

