-- ==== Sys2Proof/Config.lean ====
section
/-! DEFINITION. What a build of the block fixes (00_scope.md R12, 20_memory.md R51) and the values the spec leaves open
(93_implementation_defined.md entries 5, 6, 7, 17). -/

namespace Sys2Proof.Config

/-- MAX_WIDTH "for the block as specified" (R12, D15). A smaller build is a State whose maxWidth field holds another
value: the machine reads the field, never this constant. -/
def maxWidth : Half := 0xFFFF#16

/-- Which 32-byte window of the host's address space holds the registers: a platform parameter the spec leaves OPEN
(R51, D5). No value of it can be proved. -/
opaque regWindow : Nat

/-- REG_BASE, "a platform parameter, left open; it must be a multiple of 32" (R51). -/
def regBase : Nat := 32 * regWindow

/-- The host address of the register at a byte offset of the window (R50, R51). -/
def hostAddress (off : Offset) : Nat := regBase + off.toNat

/-- FREE VALUE: what `reg_rdata` shows in a cycle that follows no read, or while `rst` = 1
(93_implementation_defined.md entries 5 and 6). -/
opaque freeRdata : Nat → Word

/-- FREE VALUE: what `out_data` shows while `out_valid` = 0 (93_implementation_defined.md entries 6 and 7). -/
opaque freeOutData : Nat → Byte

/-- FREE VALUE: what `out_last` shows while `rst` = 1 (93_implementation_defined.md entry 6). -/
opaque freeOutLast : Nat → Bool

end Sys2Proof.Config
end

