-- ==== Sys2Proof/Machine/State.lean ====
section
/-! DEFINITION. The block's state as plain data (10_state.md R22 to R32, R44), the reasons a step can stop, and the state
after reset. -/

namespace Sys2Proof.Machine

/-- STATE (10_state.md R25). The 3-bit values 6 and 7 are "never held": the type has no such value. -/
inductive RunState where
  | idle | acqA | acqB | emit | done | error
  deriving DecidableEq, Repr

/-- ERR_CODE (R26, 60_exceptions.md R123). The codes 1 to 5 and 9 to 15 are "never produced": the type has no such
value. -/
inductive ErrCode where
  | none | badInputFormat | unsupportedInputFormat | illegalCommand
  deriving DecidableEq, Repr

/-- A row buffer's contents (R31): (address, component) pairs, the address of component c of pixel j being 4j + c,
addresses strictly rising. An unlisted address is a slot that "holds no value". -/
abbrev Memory := List Host.Cell

/-- Why the machine stops with a fault. Both are internal: no state with `Inv` reaches them (R46). -/
inductive Fault where
  /-- A rule read a row-buffer slot that holds no value. Raised by `readSlot`. Safe: R31 says a model "must treat a read
  of it as a fault". -/
  | unwrittenSlot
  /-- A rule named a pixel or lane outside its row buffer. Raised by `readSlot` and `writeSlot`. Safe: the slot does not
  exist (R31). -/
  | slotOutOfRange
  deriving DecidableEq, Repr

/-- Why the model refuses a cycle: the host did what the spec puts outside the model (R21). -/
inductive Refusal where
  /-- An instruction whose meaning is not written yet. Raised only by exec's arms; no arm raises it. Safe. -/
  | notModelled (mnemonic : String)
  /-- A register access with `reg_addr[1:0]` ≠ 00. Raised by the cycle (20_memory.md R57: "A model refuses such an
  event"). Safe. -/
  | misalignedAccess
  /-- `reg_we` and `reg_re` both 1 in one cycle. Raised by the cycle (R49, R57). Safe. -/
  | simultaneousAccess
  /-- The host changed a byte it offered before the block accepted it. Raised by the cycle (R48;
  93_implementation_defined.md entry 8: refuse). Safe. -/
  | inputNotHeld
  deriving DecidableEq, Repr

/-- Everything the spec gives the block, and the host's side of its ports. -/
structure State where
  /-- CFG_BPP (R24). -/
  cfgBpp : Byte
  /-- CFG_TYPE (R24). -/
  cfgType : Byte
  /-- CFG_WIDTH (R24). -/
  cfgWidth : Half
  /-- CFG_HEIGHT (R24). -/
  cfgHeight : Half
  /-- STATE (R25). -/
  runState : RunState
  /-- ERR_CODE (R26). -/
  errCode : ErrCode
  /-- N (R27). -/
  n : BitVec 3
  /-- SELF_PAIR (R28). -/
  selfPair : Bool
  /-- IN_ROWS (R29). -/
  inRows : Half
  /-- OUT_ROWS (R29). -/
  outRows : Half
  /-- IN_POS (R30). -/
  inPos : BitVec 18
  /-- OUT_POS (R30). -/
  outPos : BitVec 17
  /-- ROW_A (R31). -/
  rowA : Memory
  /-- ROW_B (R31). -/
  rowB : Memory
  /-- ROW_OUT (R31). -/
  rowOut : Memory
  /-- MAX_WIDTH, the constant PARAM shows and START checks (R12, R42). No event writes it. -/
  maxWidth : Half
  /-- The answer of the register read made in the previous cycle, which `reg_rdata` carries during this one (R49). -/
  readResp : Option Word
  /-- The byte the host offered at the previous edge and the block did not accept (R48, R145). -/
  waiting : Option Beat
  /-- The bytes the host has taken from the output stream, oldest first (R50: "an unaddressed, ordered sequence of
  bytes"). -/
  outStream : List Beat
  /-- The input levels of the rising edges still to come, the next one first (R47, R61). -/
  pending : List Pins
  /-- The MODEL'S OWN counter of edges: the index at which the free values of Config are taken. -/
  freeCount : Nat
  deriving DecidableEq, Repr

/-- The machine right after reset (R44): "A model starts from the state that Reset gives" (R139). -/
def State.reset : State :=
  { cfgBpp := 0#8, cfgType := 0#8, cfgWidth := 0#16, cfgHeight := 0#16,
    runState := .idle, errCode := .none, n := 0#3, selfPair := false,
    inRows := 0#16, outRows := 0#16, inPos := 0#18, outPos := 0#17,
    rowA := [], rowB := [], rowOut := [],
    maxWidth := Config.maxWidth,
    readResp := none, waiting := none, outStream := [], pending := [], freeCount := 0 }

end Sys2Proof.Machine
end

