-- ==== Sys2Proof/Machine/Operands.lean ====
section
/-! DEFINITION. The quantities the rules compute from the state (00_scope.md R17), where a stream byte sits in its row
(41_row_acquisition.md R100, 42_box_filter.md R114), and the register map's words (10_state.md R36 to R43, but STATUS). -/

namespace Sys2Proof.Machine

/-- W = CFG_WIDTH (R17). -/
def State.width (s : State) : Nat := s.cfgWidth.toNat

/-- H = CFG_HEIGHT (R17). -/
def State.height (s : State) : Nat := s.cfgHeight.toNat

/-- N, the components per pixel of the frame (R27). -/
def State.lanes (s : State) : Nat := s.n.toNat

/-- W_OUT = ⌈W/2⌉ (R17, R122). -/
def State.widthOut (s : State) : Nat := (s.width + 1) / 2

/-- H_OUT = ⌈H/2⌉ (R17, R122). -/
def State.heightOut (s : State) : Nat := (s.height + 1) / 2

/-- PAIRS = H >> 1, the number of complete row pairs (R17). -/
def State.pairs (s : State) : Nat := s.height / 2

/-- ODD_H = H & 1: 1 where a final row is left to be self-paired (R17). -/
def State.oddHeight (s : State) : Nat := s.height % 2

/-- L = 2·⌈W/2⌉, the stored length of an input row in pixels (R17). -/
def State.rowLen (s : State) : Nat := 2 * s.widthOut

/-- ROW_BYTES = W·N (R17). -/
def State.rowBytes (s : State) : Nat := s.width * s.lanes

/-- OUT_ROW_BYTES = W_OUT·N (R17). -/
def State.outRowBytes (s : State) : Nat := s.widthOut * s.lanes

/-- MAX_L = MAX_WIDTH + (MAX_WIDTH & 1), the pixels of ROW_A and of ROW_B (R31). -/
def State.rowPixels (s : State) : Nat := s.maxWidth.toNat + s.maxWidth.toNat % 2

/-- MAX_L / 2, the pixels of ROW_OUT (R31). -/
def State.outPixels (s : State) : Nat := s.rowPixels / 2

/-- The next byte is the last of its input row: IN_POS = ROW_BYTES − 1 (R100). -/
def State.atRowEnd (s : State) : Bool := s.inPos.toNat + 1 = s.rowBytes

/-- The row being acquired is the frame's last: IN_ROWS = H − 1 (R100); also SELF_PAIR's entry condition (R25). -/
def State.onLastRow (s : State) : Bool := s.inRows.toNat + 1 = s.height

/-- final_frame_byte (R100). -/
def State.atFrameEnd (s : State) : Bool := s.onLastRow && s.atRowEnd

/-- The presented byte is the last of its output row: OUT_POS = OUT_ROW_BYTES − 1 (R114). -/
def State.atOutRowEnd (s : State) : Bool := s.outPos.toNat + 1 = s.outRowBytes

/-- The row being emitted is the frame's last: OUT_ROWS = H_OUT − 1 (R114). -/
def State.onLastOutRow (s : State) : Bool := s.outRows.toNat + 1 = s.heightOut

/-- Pixel index of the byte at a stream position: POS div N (R100, R114). -/
def pixelOf (pos lanes : Nat) : Nat := pos / lanes

/-- Component index of the byte at a stream position: POS mod N (R100, R114). -/
def laneOf (pos lanes : Nat) : Nat := pos % lanes

/-- required_type(bpp) (R116); none where the depth has no row. -/
def requiredType (bpp : Byte) : Option Byte :=
  if bpp = 8#8 ∨ bpp = 16#8 then some 3#8
  else if bpp = 24#8 ∨ bpp = 32#8 then some 2#8
  else none

/-- The first failing check of START, in the fixed order of R118; none when all five pass. -/
def dispatchError (s : State) : Option ErrCode :=
  if s.cfgWidth = 0#16 then some .badInputFormat
  else if s.cfgHeight = 0#16 then some .badInputFormat
  else match requiredType s.cfgBpp with
    | none => some .unsupportedInputFormat
    | some required =>
      if s.cfgType ≠ required then some .unsupportedInputFormat
      else if s.maxWidth < s.cfgWidth then some .unsupportedInputFormat
      else none

/-- N <- CFG_BPP >> 3, as the 3-bit register holds it (R119). -/
def laneCount (bpp : Byte) : BitVec 3 := (bpp >>> 3).setWidth 3

/-- (v + 1) >> 1 with the sum in 17 bits (R40). -/
def halfUp (v : Half) : Half := ((v.setWidth 17 + 1#17) >>> 1).setWidth 16

/-- CMD reads 0 (R36, R87). -/
def cmdWord : Word := 0#32

/-- FORMAT (R38). -/
def formatWord (s : State) : Word := 0#16 ++ s.cfgType ++ s.cfgBpp

/-- DIM (R39). -/
def dimWord (s : State) : Word := s.cfgHeight ++ s.cfgWidth

/-- OUT_DIM (R40). -/
def outDimWord (s : State) : Word := halfUp s.cfgHeight ++ halfUp s.cfgWidth

/-- PROGRESS (R41). -/
def progressWord (s : State) : Word := s.outRows ++ s.inRows

/-- PARAM (R42). -/
def paramWord (s : State) : Word := 0#16 ++ s.maxWidth

/-- The reserved register reads 0 (R43, R94). -/
def rsvdWord : Word := 0#32

end Sys2Proof.Machine
end

