-- ==== Sys2Proof/Machine/Flags.lean ====
section
/-! DEFINITION. The derived flags, the codes STATUS shows and STATUS itself (10_state.md R25, R26, R33, R37, 60_exceptions.md
R123), and the stream handshake (R34). -/

namespace Sys2Proof.Machine

/-- The value STATUS shows for STATE (R25). -/
def stateCode : RunState → BitVec 3
  | .idle => 0#3
  | .acqA => 1#3
  | .acqB => 2#3
  | .emit => 3#3
  | .done => 4#3
  | .error => 5#3

/-- The value STATUS shows for ERR_CODE (R26, R123). -/
def errCodeBits : ErrCode → BitVec 4
  | .none => 0#4
  | .badInputFormat => 6#4
  | .unsupportedInputFormat => 7#4
  | .illegalCommand => 8#4

/-- BUSY = STATE ∈ {ACQ_A, ACQ_B, EMIT}: the run states (R25, R33). -/
def busyFlag : RunState → Bool
  | .acqA | .acqB | .emit => true
  | .idle | .done | .error => false

/-- DONE = (STATE == DONE) (R33). -/
def doneFlag : RunState → Bool
  | .done => true
  | .idle | .acqA | .acqB | .emit | .error => false

/-- ERR = (STATE == ERROR) (R33). -/
def errFlag : RunState → Bool
  | .error => true
  | .idle | .acqA | .acqB | .emit | .done => false

/-- STATUS (R37): `{16'b0, SELF_PAIR, N, ERR_CODE, 2'b0, ERR, DONE, BUSY, STATE}`. -/
def statusWord (s : State) : Word :=
  0#16 ++ BitVec.ofBool s.selfPair ++ s.n ++ errCodeBits s.errCode ++ 0#2 ++
    BitVec.ofBool (errFlag s.runState) ++ BitVec.ofBool (doneFlag s.runState) ++
    BitVec.ofBool (busyFlag s.runState) ++ stateCode s.runState

/-- in_ready = (STATE == ACQ_A) or (STATE == ACQ_B) (R34). -/
def State.inReady (s : State) : Bool :=
  match s.runState with
  | .acqA | .acqB => true
  | .idle | .emit | .done | .error => false

/-- out_valid = (STATE == EMIT) (R34). -/
def State.outValid (s : State) : Bool :=
  match s.runState with
  | .emit => true
  | .idle | .acqA | .acqB | .done | .error => false

/-- LAST of the presented byte: the last byte of the last output row (R34, R114). -/
def State.outLast (s : State) : Bool := s.atOutRowEnd && s.onLastOutRow

end Sys2Proof.Machine
end

