-- ==== Sys2Proof/Machine/Ops.lean ====
section
/-! DEFINITION. The named operations the meanings share: one byte of a row buffer (10_state.md R31), padding and reduction
of rows (41_row_acquisition.md R101, 42_box_filter.md R108), the entry actions of the states (R25), and entering and
leaving the error state (60_exceptions.md R125, R128). -/

namespace Sys2Proof.Machine

/-- The byte held at an address; none where no event has written it (R31). -/
def Memory.read : Memory → Nat → Option Byte
  | [], _ => none
  | (k, v) :: rest, a => if k = a then some v else Memory.read rest a

/-- Put a byte at an address, keeping the addresses strictly rising. -/
def Memory.write : Memory → Nat → Byte → Memory
  | [], a, b => [(a, b)]
  | (k, v) :: rest, a, b =>
    if a < k then (a, b) :: (k, v) :: rest
    else if a = k then (a, b) :: rest
    else (k, v) :: Memory.write rest a b

/-- The canonical form: addresses strictly rising. No entry can equal what an unlisted address reads as, since that is
no value. -/
abbrev Memory.wf (m : Memory) : Prop := m.Pairwise (fun x y => x.1 < y.1)

/-- The address of component c of pixel j: "Each pixel is 4 bytes" (R31). -/
def slotAddr (j c : Nat) : Nat := 4 * j + c

/-- Read ROW[j][c] of a buffer of `px` pixels (R16, R31). -/
def readSlot (px : Nat) (m : Memory) (j c : Nat) : Except Fault Byte :=
  if j < px ∧ c < 4 then
    match m.read (slotAddr j c) with
    | some b => .ok b
    | none => .error .unwrittenSlot
  else .error .slotOutOfRange

/-- ROW[j][c] <- b in a buffer of `px` pixels (R16, R31). -/
def writeSlot (px : Nat) (m : Memory) (j c : Nat) (b : Byte) : Except Fault Memory :=
  if j < px ∧ c < 4 then .ok (m.write (slotAddr j c) b) else .error .slotOutOfRange

/-- ROW[w][c] <- ROW[w−1][c] for the first `lanes` components (R101). -/
def padLanes (px w : Nat) : (lanes : Nat) → Memory → Except Fault Memory
  | 0, m => .ok m
  | c + 1, m => do
    let m ← padLanes px w c m
    let b ← readSlot px m (w - 1) c
    writeSlot px m w c b

/-- Pad(ROW): the last pixel of a row of odd width is duplicated into the padding slot (R101). -/
def padRow (px w lanes : Nat) (m : Memory) : Except Fault Memory :=
  if w % 2 = 1 then padLanes px w lanes m else .ok m

/-- avg4(p, q, r, s) = (p + q + r + s + 2) >> 2, in a 16-bit accumulator biased by 2, bits 7:0 of the result (R108,
R109). -/
def avg4 (p q r s : Byte) : Byte :=
  let acc : BitVec 16 := 2#16 + p.setWidth 16 + q.setWidth 16 + r.setWidth 16 + s.setWidth 16
  (acc >>> 2).setWidth 8

/-- Component c of output pixel k from rows A and B of `px` pixels (R108). -/
def reduceSlot (px : Nat) (a b : Memory) (k c : Nat) : Except Fault Byte := do
  let p ← readSlot px a (2 * k) c
  let q ← readSlot px a (2 * k + 1) c
  let r ← readSlot px b (2 * k) c
  let s ← readSlot px b (2 * k + 1) c
  return avg4 p q r s

/-- The first `lanes` components of output pixel k (R108, the inner loop). -/
def reducePixel (px outPx : Nat) (a b : Memory) (k : Nat) : (lanes : Nat) → Memory → Except Fault Memory
  | 0, out => .ok out
  | c + 1, out => do
    let out ← reducePixel px outPx a b k c out
    let v ← reduceSlot px a b k c
    writeSlot outPx out k c v

/-- Reduce(A, B) for the first `pixels` output pixels, into `out` (R108, the outer loop). Lanes from `lanes` on and pixels
from `pixels` on are not written. -/
def reduceRows (px outPx : Nat) (a b : Memory) (lanes : Nat) : (pixels : Nat) → Memory → Except Fault Memory
  | 0, out => .ok out
  | k + 1, out => do
    let out ← reduceRows px outPx a b lanes k out
    reducePixel px outPx a b k lanes out

/-- ROW_OUT <- Reduce(A, B) with the frame's W_OUT and N (R108). -/
def reduceInto (s : State) (a b : Memory) : Except Fault Memory :=
  reduceRows s.rowPixels s.outPixels a b s.lanes s.widthOut s.rowOut

/-- ERROR ENTRY, the one exception of the block (R125): STATE and ERR_CODE, and nothing else. -/
def raiseError (code : ErrCode) (s : State) : State := { s with runState := .error, errCode := code }

/-- The clearing every accepted START makes (43_dispatch.md R117). -/
def clearRun (s : State) : State :=
  { s with n := 0#3, selfPair := false, inRows := 0#16, outRows := 0#16, inPos := 0#18, outPos := 0#17 }

/-- RETURN FROM AN ERROR, and the end of any frame, by ABORT (R84, R128): the configuration is kept, the row buffers hold
no value. -/
def abandonFrame (s : State) : State :=
  { clearRun s with runState := .idle, errCode := .none, rowA := [], rowB := [], rowOut := [] }

/-- What a Reset leaves (70_reset_and_hazards.md R137): every element of the block at its reset value; the build's
MAX_WIDTH, the bytes already taken, and the host's coming edges are not the block's to reset (R42, R138). -/
def resetBlock (s : State) : State :=
  { State.reset with maxWidth := s.maxWidth, outStream := s.outStream, pending := s.pending, freeCount := s.freeCount }

/-- goto ACQ_A (R25): IN_POS <- 0; SELF_PAIR <- (IN_ROWS + 1 == H). -/
def enterAcqA (s : State) : State := { s with runState := .acqA, inPos := 0#18, selfPair := s.onLastRow }

/-- goto ACQ_B (R25): IN_POS <- 0. -/
def enterAcqB (s : State) : State := { s with runState := .acqB, inPos := 0#18 }

/-- goto EMIT (R25): OUT_POS <- 0. -/
def enterEmit (s : State) : State := { s with runState := .emit, outPos := 0#17 }

/-- goto DONE (R25): no entry action. -/
def enterDone (s : State) : State := { s with runState := .done }

/-- How a command that a run forbids and an error ignores takes effect (40_commands.md R78). -/
def whenStopped (effect : State → State) (s : State) : State :=
  match s.runState with
  | .error => s
  | .acqA | .acqB | .emit => raiseError .illegalCommand s
  | .idle | .done => effect s

/-- A register read: the value is on `reg_rdata` during the following cycle; no side effect (20_memory.md R49, R60). -/
def respond (v : Word) (s : State) : State := { s with readResp := some v }

/-- An internal fault of an operation as the outcome of the event. -/
def outcomeOf : Except Fault State → Host.Outcome State Fault Refusal
  | .ok s => .next s
  | .error f => .fault f

end Sys2Proof.Machine
end

