-- ==== Sys2Proof/Machine/Commands.lean ====
section
/-! DEFINITION. The command words and the ignored writes (40_commands.md R78 to R86, 43_dispatch.md R116 to R120). -/

namespace Sys2Proof.Machine

/-- NOP: no effect, in any state (R79). -/
def execNop (s : State) : Host.Outcome State Fault Refusal := .next s

/-- SET_FORMAT (R80). -/
def execSetFormat (bpp imgType : Byte) (s : State) : Host.Outcome State Fault Refusal :=
  .next (whenStopped (fun s => { s with cfgBpp := bpp, cfgType := imgType }) s)

/-- SET_WIDTH (R81). -/
def execSetWidth (w : Half) (s : State) : Host.Outcome State Fault Refusal :=
  .next (whenStopped (fun s => { s with cfgWidth := w }) s)

/-- SET_HEIGHT (R82). -/
def execSetHeight (h : Half) (s : State) : Host.Outcome State Fault Refusal :=
  .next (whenStopped (fun s => { s with cfgHeight := h }) s)

/-- Dispatch() (R120): clear the run state, make the checks of R118, set N and enter ACQ_A (R119). -/
def dispatchFrame (s : State) : State :=
  match dispatchError (clearRun s) with
  | some code => raiseError code (clearRun s)
  | none => enterAcqA { clearRun s with n := laneCount s.cfgBpp }

/-- START (R83). -/
def execStart (s : State) : Host.Outcome State Fault Refusal := .next (whenStopped dispatchFrame s)

/-- ABORT: to IDLE from every state (R84). -/
def execAbort (s : State) : Host.Outcome State Fault Refusal := .next (abandonFrame s)

/-- An ILLEGAL command word raises ILLEGAL_COMMAND unless STATE = ERROR (R85). -/
def illegalWord (s : State) : State :=
  match s.runState with
  | .error => s
  | .idle | .acqA | .acqB | .emit | .done => raiseError .illegalCommand s

/-- ILLEGAL: OP 0x6, 0x7, or a known OP with a must-be-zero bit set (R72, R85). -/
def execIllegal (_w : Word) (s : State) : Host.Outcome State Fault Refusal := .next (illegalWord s)

/-- ILLEGAL: OP 0x8 to 0xF (R72, R85). -/
def execIllegalHigh (_w : Word) (s : State) : Host.Outcome State Fault Refusal := .next (illegalWord s)

/-- A write at an offset other than 0x00 is ignored (R86). -/
def execWrOther (_r : HostReg) (_data : Word) (s : State) : Host.Outcome State Fault Refusal := .next s

end Sys2Proof.Machine
end

