-- ==== Sys2Proof/Machine/Registers.lean ====
section
/-! DEFINITION. The register reads (40_commands.md R87 to R94): each answers its register's word and changes nothing. -/

namespace Sys2Proof.Machine

/-- RD CMD (R87). -/
def execRdCmd (s : State) : Host.Outcome State Fault Refusal := .next (respond cmdWord s)

/-- RD STATUS (R88). -/
def execRdStatus (s : State) : Host.Outcome State Fault Refusal := .next (respond (statusWord s) s)

/-- RD FORMAT (R89). -/
def execRdFormat (s : State) : Host.Outcome State Fault Refusal := .next (respond (formatWord s) s)

/-- RD DIM (R90). -/
def execRdDim (s : State) : Host.Outcome State Fault Refusal := .next (respond (dimWord s) s)

/-- RD OUT_DIM (R91). -/
def execRdOutDim (s : State) : Host.Outcome State Fault Refusal := .next (respond (outDimWord s) s)

/-- RD PROGRESS (R92). -/
def execRdProgress (s : State) : Host.Outcome State Fault Refusal := .next (respond (progressWord s) s)

/-- RD PARAM (R93). -/
def execRdParam (s : State) : Host.Outcome State Fault Refusal := .next (respond (paramWord s) s)

/-- RD RSVD (R94). -/
def execRdRsvd (s : State) : Host.Outcome State Fault Refusal := .next (respond rsvdWord s)

end Sys2Proof.Machine
end

