-- ==== Sys2Proof/Machine/Resets.lean ====
section
/-! DEFINITION. The Reset event (70_reset_and_hazards.md R137, R138). -/

namespace Sys2Proof.Machine

/-- RESET: "Reset can happen in any state and always succeeds" (R137). -/
def execReset (s : State) : Host.Outcome State Fault Refusal := .next (resetBlock s)

end Sys2Proof.Machine
end

