-- ==== Sys2Proof/Machine/Streams.lean ====
section
/-! DEFINITION. The two stream beats: row-pair acquisition (41_row_acquisition.md R100 to R104) and output emission
(42_box_filter.md R114). -/

namespace Sys2Proof.Machine

/-- RowComplete() when the row was acquired in ACQ_A (R102): pad it; then either the second row of the pair is next, or the
row is reduced with itself. -/
def completeRowA (s : State) : Except Fault State := do
  let a ← padRow s.rowPixels s.width s.lanes s.rowA
  let s := { s with rowA := a, inRows := s.inRows + 1#16 }
  if s.selfPair then
    let out ← reduceInto s s.rowA s.rowA
    return enterEmit { s with rowOut := out }
  else
    return enterAcqB s

/-- RowComplete() when the row was acquired in ACQ_B (R102): pad it and reduce the pair. -/
def completeRowB (s : State) : Except Fault State := do
  let b ← padRow s.rowPixels s.width s.lanes s.rowB
  let s := { s with rowB := b, inRows := s.inRows + 1#16 }
  let out ← reduceInto s s.rowA s.rowB
  return enterEmit { s with rowOut := out }

/-- Store the byte at IN_POS of ROW_A and advance, completing the row at its last byte (R100). -/
def storeInA (d : Byte) (s : State) : Except Fault State := do
  let a ← writeSlot s.rowPixels s.rowA (pixelOf s.inPos.toNat s.lanes) (laneOf s.inPos.toNat s.lanes) d
  if s.atRowEnd then completeRowA { s with rowA := a }
  else return { s with rowA := a, inPos := s.inPos + 1#18 }

/-- Store the byte at IN_POS of ROW_B and advance, completing the row at its last byte (R100). -/
def storeInB (d : Byte) (s : State) : Except Fault State := do
  let b ← writeSlot s.rowPixels s.rowB (pixelOf s.inPos.toNat s.lanes) (laneOf s.inPos.toNat s.lanes) d
  if s.atRowEnd then completeRowB { s with rowB := b }
  else return { s with rowB := b, inPos := s.inPos + 1#18 }

/-- The byte proves that the source ends before the frame does (R100, R103). -/
def truncates (last : Bool) (s : State) : Bool := last && !s.atFrameEnd

/-- IN_BEAT (R100). Where `in_ready` = 0 no beat happens and the host's byte waits; a truncating beat stores nothing and
raises BAD_INPUT_FORMAT (R103). -/
def execInBeat (d : Byte) (last : Bool) (s : State) : Host.Outcome State Fault Refusal :=
  match s.runState with
  | .acqA => if truncates last s then .next (raiseError .badInputFormat s) else outcomeOf (storeInA d s)
  | .acqB => if truncates last s then .next (raiseError .badInputFormat s) else outcomeOf (storeInB d s)
  | .idle | .emit | .done | .error => .next s

/-- The state after the presented byte has been taken (R114): advance OUT_POS, or finish the row and enter DONE or ACQ_A.
The comparison with H_OUT is made after the increment. -/
def advanceOut (s : State) : State :=
  if s.atOutRowEnd then
    let s := { s with outRows := s.outRows + 1#16 }
    if s.outRows.toNat = s.heightOut then enterDone s else enterAcqA s
  else { s with outPos := s.outPos + 1#17 }

/-- OUT_BEAT (R114). Where `out_valid` = 0 nothing is taken. -/
def execOutBeat (s : State) : Host.Outcome State Fault Refusal :=
  match s.runState with
  | .emit =>
    match readSlot s.outPixels s.rowOut (pixelOf s.outPos.toNat s.lanes) (laneOf s.outPos.toNat s.lanes) with
    | .ok d => .next (advanceOut { s with outStream := s.outStream ++ [{ data := d, last := s.outLast }] })
    | .error f => .fault f
  | .idle | .acqA | .acqB | .done | .error => .next s

end Sys2Proof.Machine
end

