-- ==== Sys2Proof/Machine/Dispatch.lean ====
section
/-! DEFINITION. exec: the meaning of each instruction of spec/opcode_table.json, one arm per constructor. -/

namespace Sys2Proof.Machine

def exec (i : Instr) (s : State) : Host.Outcome State Fault Refusal :=
  match i with
  | .nop => Sys2Proof.Machine.execNop s
  | .setFormat bpp imgType => Sys2Proof.Machine.execSetFormat bpp imgType s
  | .setWidth w => Sys2Proof.Machine.execSetWidth w s
  | .setHeight h => Sys2Proof.Machine.execSetHeight h s
  | .start => Sys2Proof.Machine.execStart s
  | .abort => Sys2Proof.Machine.execAbort s
  | .illegal w => Sys2Proof.Machine.execIllegal w s
  | .illegalHigh w => Sys2Proof.Machine.execIllegalHigh w s
  | .rdCmd => Sys2Proof.Machine.execRdCmd s
  | .rdStatus => Sys2Proof.Machine.execRdStatus s
  | .rdFormat => Sys2Proof.Machine.execRdFormat s
  | .rdDim => Sys2Proof.Machine.execRdDim s
  | .rdOutDim => Sys2Proof.Machine.execRdOutDim s
  | .rdProgress => Sys2Proof.Machine.execRdProgress s
  | .rdParam => Sys2Proof.Machine.execRdParam s
  | .rdRsvd => Sys2Proof.Machine.execRdRsvd s
  | .wrOther r data => Sys2Proof.Machine.execWrOther r data s
  | .inBeat data last => Sys2Proof.Machine.execInBeat data last s
  | .outBeat => Sys2Proof.Machine.execOutBeat s
  | .reset => Sys2Proof.Machine.execReset s

end Sys2Proof.Machine
end

