-- ==== Sys2Proof/Machine/Cycle.lean ====
section
/-! DEFINITION. One rising edge of `clk`: which events the input levels make, in which order they take effect (20_memory.md
R48, R49, R57, R62), and the levels the block drives (R34, R47). -/

namespace Sys2Proof.Machine

/-- The byte the host offers at this edge, if any. -/
def offered (p : Pins) : Option Beat :=
  if p.inValid then some { data := p.inData, last := p.inLast } else none

/-- The host offers a byte other than the one that was waiting (R48, R145). Withdrawing the offer is no change of it. -/
def offerChanged (p : Pins) (s : State) : Bool :=
  match s.waiting, offered p with
  | some b, some b' => b ≠ b'
  | _, _ => false

/-- The host's side of the ports after this edge: an old read answer is gone (R49); an offered byte that the block was not
ready for waits (R48), but for a cycle of reset, which discards every handshake (R62); one more edge has passed. -/
def latchPorts (p : Pins) (s : State) : State :=
  { s with
    readResp := none
    waiting := if p.rst || s.inReady then none else offered p
    freeCount := s.freeCount + 1 }

/-- The stream event of an edge: at most one beat can happen, judged against the state at the start of the cycle (R62).
Where neither handshake is complete, the event is the one the host asked for, and `exec` leaves the state as it is. -/
def streamTransactions (p : Pins) (s : State) : List Transaction :=
  if p.outReady && (s.outValid || !p.inValid) then [.outBeat]
  else if p.inValid then [.inBeat (packBeat { data := p.inData, last := p.inLast })]
  else []

/-- The register read of an edge (R49). -/
def readTransactions (p : Pins) : List Transaction := if p.regRe then [.regRead p.regAddr] else []

/-- The register write of an edge (R49). -/
def writeTransactions (p : Pins) : List Transaction := if p.regWe then [.regWrite p.regAddr p.regWdata] else []

/-- The events of an edge without reset, in the order of R62: the read, the stream beat, the write. -/
def cycleTransactions (p : Pins) (s : State) : List Transaction :=
  readTransactions p ++ streamTransactions p s ++ writeTransactions p

/-- One event: decoded and executed; a misaligned register access is refused (R57). -/
def runTransaction (t : Transaction) (s : State) : Host.Outcome State Fault Refusal :=
  match decode t with
  | .ok i => exec i s
  | .error .misalignedOffset => .refused .misalignedAccess

/-- Events one after the other; the first stop ends the cycle. -/
def runTransactions : List Transaction → State → Host.Outcome State Fault Refusal
  | [], s => .next s
  | t :: rest, s =>
    match runTransaction t s with
    | .next s' => runTransactions rest s'
    | .fault f => .fault f
    | .refused r => .refused r

/-- One rising edge (R62). With `rst` = 1 there is the reset alone; what the host may not do is refused by name. -/
def runCycle (p : Pins) (s : State) : Host.Outcome State Fault Refusal :=
  if p.rst then runTransaction .reset (latchPorts p s)
  else if p.regWe && p.regRe then .refused .simultaneousAccess
  else if offerChanged p s then .refused .inputNotHeld
  else runTransactions (cycleTransactions p s) (latchPorts p s)

/-- The levels of the block's outputs during the cycle that starts in state `s`, with `rst` at the level given (R34, R47,
R49, R137). What the spec leaves to "any value" is a free value of Config (93_implementation_defined.md entries 5 to 7). -/
def portsOut (rst : Bool) (s : State) : PortsOut :=
  let presented := s.rowOut.read (slotAddr (pixelOf s.outPos.toNat s.lanes) (laneOf s.outPos.toNat s.lanes))
  { regRdata := if rst then Config.freeRdata s.freeCount else s.readResp.getD (Config.freeRdata s.freeCount)
    inReady := !rst && s.inReady
    outValid := !rst && s.outValid
    outData := if !rst && s.outValid then presented.getD (Config.freeOutData s.freeCount)
               else Config.freeOutData s.freeCount
    outLast := if rst then Config.freeOutLast s.freeCount else s.outValid && s.outLast }

end Sys2Proof.Machine
end

