-- ==== Sys2Proof/Machine/Step.lean ====
section
/-! DEFINITION. step: the next rising edge of `clk`. The block fetches nothing and has no step of its own (10_state.md R23,
00_scope.md R19): what it runs next is what the host drives at the next edge, the head of `pending`. -/

namespace Sys2Proof.Machine

/-- One step. With no edge to come, nothing changes (60_exceptions.md R136). -/
def step (s : State) : Host.Outcome State Fault Refusal :=
  match s.pending with
  | [] => .next s
  | p :: rest => runCycle p { s with pending := rest }

/-- The state whose next edge carries the event that spec/opcode_table.json numbers `w` in a row of `nbits` bits, and
nothing else. A byte left waiting by an earlier edge is withdrawn where the new edge offers one. -/
def State.withFetchWord (s : State) (nbits w : Nat) : State :=
  match tableTransaction nbits w with
  | some t =>
    { s with
      pending := t.pins :: s.pending
      waiting := if t.pins.inValid then none else s.waiting }
  | none => { s with pending := quietPins :: s.pending }

end Sys2Proof.Machine
end

