-- ==== Sys2Proof/Machine/HostProgram.lean ====
section
/-! DEFINITION. The assembler lines and pseudo-instructions of a host program (30_encoding.md R76, R77): each stands for the
transactions shown there, in order, and means no more than them. -/

namespace Sys2Proof.Machine

/-- A line of a host program: the syntax column of R76, then the pseudo-instructions of R77. -/
inductive HostLine where
  /-- NOP, SET_FORMAT, SET_WIDTH, SET_HEIGHT, START, ABORT, RD, IN, IN.L and OUT: one event by name (R76). -/
  | event (i : Instr)
  /-- `CMD word`: any word, written to CMD (R76). -/
  | cmd (word : Word)
  /-- `WR off, word` (R76). -/
  | wr (off : Offset) (word : Word)
  /-- `CONFIG bpp, type, w, h` (R77). -/
  | config (bpp imgType : Byte) (w h : Half)
  /-- `FEED b0, …, bk` (R77). -/
  | feed (bytes : List Byte)
  /-- `FEED.L b0, …, bk`: the last byte is marked (R77). -/
  | feedLast (bytes : List Byte)
  /-- `DRAIN n` (R77). -/
  | drain (n : Nat)
  /-- `WAIT_DONE`, a host loop: `RD STATUS` made `polls` times, the last being the first whose answer `pollEnds` (R77). -/
  | waitDone (polls : Nat)
  deriving DecidableEq, Repr

/-- The bytes of a FEED.L as input beats (R77). -/
def feedLastBeats : List Byte → List Transaction
  | [] => []
  | [b] => [encode (.inBeat b true)]
  | b :: rest => encode (.inBeat b false) :: feedLastBeats rest

/-- The transactions a line expands to (R76, R77). -/
def HostLine.expand : HostLine → List Transaction
  | .event i => [encode i]
  | .cmd word => [.regWrite (regOffset .cmd) word]
  | .wr off word => [.regWrite off word]
  | .config bpp imgType w h => [encode (.setFormat bpp imgType), encode (.setWidth w), encode (.setHeight h)]
  | .feed bytes => bytes.map (fun b => encode (.inBeat b false))
  | .feedLast bytes => feedLastBeats bytes
  | .drain n => List.replicate n (encode .outBeat)
  | .waitDone polls => List.replicate polls (encode .rdStatus)

/-- WAIT_DONE's loop ends when STATUS[2:0] ∈ {4, 5} (R77). -/
def pollEnds (status : Word) : Bool :=
  status.extractLsb' 0 3 = 4#3 || status.extractLsb' 0 3 = 5#3

/-- The input levels a host program drives, one transaction an edge. -/
def programPins (lines : List HostLine) : List Pins := (lines.flatMap HostLine.expand).map Transaction.pins

end Sys2Proof.Machine
end

