-- ==== Sys2Proof/Safety.lean ====
section
/-! DEFINITION. The terms claims are stated in: the invariant of the reachable states (10_state.md R45, R46, and the facts of
R26 to R31 it rests on), where a stream byte stands in its frame (20_memory.md R54, R55), and how much of a frame is left
(41_row_acquisition.md R106). -/

namespace Sys2Proof.Machine

/-- A row buffer of `px` pixels in canonical form, with no entry outside the buffer (R31). -/
abbrev BufferOk (px : Nat) (m : Memory) : Prop := m.wf ∧ ∀ e ∈ m, e.1 < 4 * px

/-- The first `count` bytes of a row have been stored: byte t is component t mod N of pixel t div N (R30). -/
abbrev BytesWritten (m : Memory) (lanes count : Nat) : Prop :=
  ∀ t < count, (m.read (slotAddr (pixelOf t lanes) (laneOf t lanes))).isSome = true

/-- Pixels 0 to pixels − 1, components 0 to lanes − 1, hold values (R46). -/
abbrev PixelsWritten (m : Memory) (pixels lanes : Nat) : Prop :=
  ∀ j < pixels, ∀ c < lanes, (m.read (slotAddr j c)).isSome = true

/-- The padding slot of a row of odd width w holds a copy of pixel w − 1 (R101). -/
abbrev Padded (m : Memory) (w lanes : Nat) : Prop :=
  w % 2 = 1 → ∀ c < lanes, m.read (slotAddr w c) = m.read (slotAddr (w - 1) c)

/-- A row as RowComplete leaves it: L pixels of N components, padded (R101, R107). -/
abbrev RowDone (s : State) (m : Memory) : Prop := PixelsWritten m s.rowLen s.lanes ∧ Padded m s.width s.lanes

/-- The second row of the reduction that entered EMIT: ROW_A itself for a self-paired row (R102). -/
def State.secondRow (s : State) : Memory := if s.selfPair then s.rowA else s.rowB

/-- ROW_OUT holds Reduce(A, B) of the rows held (R46, R108). -/
abbrev RowReduced (s : State) : Prop :=
  ∀ k < s.widthOut, ∀ c < s.lanes, (s.rowOut.read (slotAddr k c)).isSome = true ∧
    s.rowOut.read (slotAddr k c) = (reduceSlot s.rowPixels s.rowA s.secondRow k c).toOption

/-- The configuration is one that START's checks pass, and N is its component count (R118, R119). -/
abbrev FormatOk (s : State) : Prop :=
  requiredType s.cfgBpp = some s.cfgType ∧ s.n = laneCount s.cfgBpp ∧
  s.cfgWidth ≠ 0#16 ∧ s.cfgHeight ≠ 0#16 ∧ s.cfgWidth ≤ s.maxWidth

/-- IDLE: reset or ABORT cleared the run state (R44, R84). -/
abbrev IdleOk (s : State) : Prop :=
  s.n = 0#3 ∧ s.selfPair = false ∧ s.inRows = 0#16 ∧ s.outRows = 0#16 ∧ s.inPos = 0#18 ∧ s.outPos = 0#17

/-- ACQ_A (R45). -/
abbrev AcqAOk (s : State) : Prop :=
  FormatOk s ∧ s.inRows.toNat = 2 * s.outRows.toNat ∧ s.inRows.toNat < s.height ∧ s.inPos.toNat < s.rowBytes ∧
  s.selfPair = s.onLastRow ∧ BytesWritten s.rowA s.lanes s.inPos.toNat

/-- ACQ_B (R45). -/
abbrev AcqBOk (s : State) : Prop :=
  FormatOk s ∧ s.inRows.toNat = 2 * s.outRows.toNat + 1 ∧ s.inRows.toNat < s.height ∧ s.inPos.toNat < s.rowBytes ∧
  s.selfPair = false ∧ RowDone s s.rowA ∧ BytesWritten s.rowB s.lanes s.inPos.toNat

/-- EMIT (R45, R46). -/
abbrev EmitOk (s : State) : Prop :=
  FormatOk s ∧ s.outRows.toNat < s.heightOut ∧ s.outPos.toNat < s.outRowBytes ∧ s.inRows.toNat ≤ s.height ∧
  (if s.selfPair then s.inRows.toNat = s.height ∧ s.inRows.toNat = 2 * s.outRows.toNat + 1
   else s.inRows.toNat = 2 * s.outRows.toNat + 2) ∧
  RowDone s s.rowA ∧ RowDone s s.secondRow ∧ RowReduced s

/-- DONE, as every state in it keeps it: the relation between the counters. R45's own clause, `RowsCounted`, cannot be kept
by a SET_HEIGHT in DONE (R78, R82; notes/assumptions/9.md). -/
abbrev DoneOk (s : State) : Prop :=
  1 ≤ s.lanes ∧ s.lanes ≤ 4 ∧ 1 ≤ s.inRows.toNat ∧ s.outRows.toNat = (s.inRows.toNat + 1) / 2

/-- R45's clause for DONE to the letter. It holds as DONE is entered, and every event keeps it but a SET_HEIGHT in DONE, which
changes H under the counters (R78, R82; notes/assumptions/9.md). With `Inv` it is the whole of R45. -/
abbrev RowsCounted (s : State) : Prop :=
  s.runState = .done →
    s.inRows.toNat = s.height ∧ s.outRows.toNat = s.heightOut ∧ 1 ≤ s.lanes ∧ s.lanes ≤ 4

/-- What every state that events can reach from reset satisfies: R45 and R46, where DONE is `DoneOk`
(notes/assumptions/9.md). -/
structure Inv (s : State) : Prop where
  rowA   : BufferOk s.rowPixels s.rowA
  rowB   : BufferOk s.rowPixels s.rowB
  rowOut : BufferOk s.outPixels s.rowOut
  code   : s.errCode = .none ↔ s.runState ≠ .error
  lanes  : s.lanes ≤ 4
  idle   : s.runState = .idle → IdleOk s
  acqA   : s.runState = .acqA → AcqAOk s
  acqB   : s.runState = .acqB → AcqBOk s
  emit   : s.runState = .emit → EmitOk s
  done   : s.runState = .done → DoneOk s

/-- A safe outcome of a step: a next state that keeps the invariant, or a refusal of what the host may not do; never a
fault. -/
def SafeOutcome : Host.Outcome State Fault Refusal → Prop
  | .next s' => Inv s'
  | .refused _ => True
  | .fault _ => False

/-- The index t in the frame of the byte the input stream delivers next (R54). -/
def State.inIndex (s : State) : Nat := s.inRows.toNat * s.rowBytes + s.inPos.toNat

/-- The index u in the output frame of the byte the output stream presents (R55). -/
def State.outIndex (s : State) : Nat := s.outRows.toNat * s.outRowBytes + s.outPos.toNat

/-- The input bytes the current frame still has to accept (R106). -/
def State.inputLeft (s : State) : Nat :=
  match s.runState with
  | .acqA | .acqB => s.height * s.rowBytes - s.inIndex
  | .emit => s.height * s.rowBytes - s.inRows.toNat * s.rowBytes
  | .idle | .done | .error => 0

/-- The output bytes the current frame still has to present (R106). -/
def State.outputLeft (s : State) : Nat :=
  match s.runState with
  | .acqA | .acqB => s.heightOut * s.outRowBytes - s.outRows.toNat * s.outRowBytes
  | .emit => s.heightOut * s.outRowBytes - s.outIndex
  | .idle | .done | .error => 0

/-- The host of R149, which "keeps offering the frame's bytes and keeps taking output", for k beats: the byte it offers is the
one of its source `img` that the frame's order (R54) asks for, never marked last (R104). -/
def driveFrame (img : Nat → Byte) : (k : Nat) → State → Host.Outcome State Fault Refusal
  | 0, s => .next s
  | k + 1, s =>
    match exec (if s.inReady then .inBeat (img s.inIndex) false else .outBeat) s with
    | .next t => driveFrame img k t
    | .fault f => .fault f
    | .refused r => .refused r

/-- The index in the input frame of component c of pixel j of stored row r (R54). -/
def frameIndex (w lanes r j c : Nat) : Nat := r * (w * lanes) + (j * lanes + c)

/-- Component c of pixel j of output row k of a w × h image: the box filter of rows 2k, 2k + 1 and pixels 2j, 2j + 1, where a
row or pixel past the last is the last again (R101, R102, R109, R112, R113). -/
def boxFilter (img : Nat → Byte) (w h lanes k j c : Nat) : Byte :=
  let r0 := 2 * k
  let r1 := min (2 * k + 1) (h - 1)
  let j0 := 2 * j
  let j1 := min (2 * j + 1) (w - 1)
  avg4 (img (frameIndex w lanes r0 j0 c)) (img (frameIndex w lanes r0 j1 c))
    (img (frameIndex w lanes r1 j0 c)) (img (frameIndex w lanes r1 j1 c))

/-- The output frame of a w × h image of `lanes` components: byte u is component u mod N of output pixel
(u mod OUT_ROW_BYTES) div N of output row u div OUT_ROW_BYTES (R55), and LAST is 1 on the last byte alone (R114). -/
def outputFrame (img : Nat → Byte) (w h lanes : Nat) : List Beat :=
  let rowBytes := (w + 1) / 2 * lanes
  let total := (h + 1) / 2 * rowBytes
  (List.range total).map (fun u =>
    { data := boxFilter img w h lanes (u / rowBytes) (u % rowBytes / lanes) (u % lanes)
      last := u + 1 = total })

end Sys2Proof.Machine
end

