-- ==== Sys2Proof/Certificates/Slice0/Obligations.lean ====
section
/-! DEFINITION. The statements for the provers, in the order of OBLIGATIONS.json. Numbers in them are the spec's own. -/

open Sys2Proof Sys2Proof.Machine

/-! ### Encoding -/

/-- O1. Decoding an encoded well-formed instruction gives it back: no bit of an encoding is dropped (R68, R70, R71, R73,
R74, R76). -/
def Obligations.DecodeOfEncodeIsTheInstruction : Prop :=
  ∀ i : Instr, i.wellFormed = true → decode (encode i) = .ok i

/-- O2. What a transaction decodes to is well formed and encodes to that transaction alone (R71 to R75). -/
def Obligations.EncodeOfDecodeIsTheTransaction : Prop :=
  ∀ (t : Transaction) (i : Instr), decode t = .ok i → i.wellFormed = true ∧ encode i = t

/-- O3. The match/mask pairs of R70 select the six commands, with the operands' bits of R69, and OP 0x6 to 0xF selects
none. -/
def Obligations.CommandWordsMatchTheirMasks : Prop :=
  ∀ w : Word,
    (decodeCommand w = .nop ↔ w &&& 0xFFFFFFFF#32 = 0x00000000#32) ∧
    (decodeCommand w = .start ↔ w &&& 0xFFFFFFFF#32 = 0x40000000#32) ∧
    (decodeCommand w = .abort ↔ w &&& 0xFFFFFFFF#32 = 0x50000000#32) ∧
    (∀ bpp imgType, decodeCommand w = .setFormat bpp imgType ↔
      w &&& 0xFFFF0000#32 = 0x10000000#32 ∧ bpp = w.extractLsb' 0 8 ∧ imgType = w.extractLsb' 8 8) ∧
    (∀ v, decodeCommand w = .setWidth v ↔ w &&& 0xFFFF0000#32 = 0x20000000#32 ∧ v = w.extractLsb' 0 16) ∧
    (∀ v, decodeCommand w = .setHeight v ↔ w &&& 0xFFFF0000#32 = 0x30000000#32 ∧ v = w.extractLsb' 0 16) ∧
    (6 ≤ w.toNat / 2 ^ 28 → decodeCommand w = .illegal w ∨ decodeCommand w = .illegalHigh w)

/-- O4. The three classes of R72 are the ILLEGAL words, and writing one raises ILLEGAL_COMMAND unless STATE = ERROR
(R72, R85). -/
def Obligations.ReservedAndMalformedWordsRaiseIllegalCommand : Prop :=
  ∀ w : Word,
    ((6 ≤ w.toNat / 2 ^ 28 ∨
      ((w.toNat / 2 ^ 28 = 0 ∨ w.toNat / 2 ^ 28 = 4 ∨ w.toNat / 2 ^ 28 = 5) ∧ w.toNat % 2 ^ 28 ≠ 0) ∨
      ((w.toNat / 2 ^ 28 = 1 ∨ w.toNat / 2 ^ 28 = 2 ∨ w.toNat / 2 ^ 28 = 3) ∧ w.toNat / 2 ^ 16 % 2 ^ 12 ≠ 0)) ↔
      (decodeCommand w = .illegal w ∨ decodeCommand w = .illegalHigh w)) ∧
    ∀ s : State, ∀ i, i = .illegal w ∨ i = .illegalHigh w →
      (s.runState = .error → exec i s = .next s) ∧
      (s.runState ≠ .error → exec i s = .next { s with runState := .error, errCode := .illegalCommand })

/-- O5. Words of 95_test_vectors.md L2.1, beats and offsets of R73 and R74, written out, decode to what the spec says. -/
def Obligations.SampleWordsDecodeAsTabled : Prop :=
  decodeCommand 0x00000000#32 = .nop ∧
  decodeCommand 0x00000001#32 = .illegal 0x00000001#32 ∧
  decodeCommand 0x10000218#32 = .setFormat 24#8 2#8 ∧
  decodeCommand 0x10010308#32 = .illegal 0x10010308#32 ∧
  decodeCommand 0x2000FFFF#32 = .setWidth 65535#16 ∧
  decodeCommand 0x30000003#32 = .setHeight 3#16 ∧
  decodeCommand 0x40000000#32 = .start ∧
  decodeCommand 0x50000000#32 = .abort ∧
  decodeCommand 0x60000000#32 = .illegal 0x60000000#32 ∧
  decodeCommand 0xF0000000#32 = .illegalHigh 0xF0000000#32 ∧
  decode (.regRead 0x14#5) = .ok .rdProgress ∧
  decode (.regWrite 0x1C#5 7#32) = .ok (.wrOther .rsvd 7#32) ∧
  decode (.inBeat 0b100101000#9) = .ok (.inBeat 40#8 true)

/-- O6. Decoding is total but for a register access whose `reg_addr[1:0]` is not 00 (R57, R71, R73, R74). -/
def Obligations.OnlyMisalignedAccessesFailToDecode : Prop :=
  ∀ t : Transaction,
    decode t = .error .misalignedOffset ↔
      ∃ addr : Offset, addr.toNat % 4 ≠ 0 ∧ (t = .regRead addr ∨ ∃ data, t = .regWrite addr data)

/-! ### Commands -/

/-- O7. NOP and the ignored writes change nothing, in any state; their encodings (R79, R86). -/
def Obligations.NopAndOtherWritesChangeNothing : Prop :=
  decode (.regWrite 0x00#5 0x00000000#32) = .ok .nop ∧
  (∀ w : Word, w.toNat / 2 ^ 28 = 0 → w ≠ 0#32 → decodeCommand w = .illegal w) ∧
  (∀ s : State, exec .nop s = .next s) ∧
  (∀ (s : State) (r : HostReg) (data : Word), exec (.wrOther r data) s = .next s) ∧
  (∀ (s : State) (addr : Offset) (data : Word), addr.toNat % 4 = 0 → addr ≠ 0x00#5 →
    runTransaction (.regWrite addr data) s = .next s)

/-- O8. SET_FORMAT in every state, and its word (R80). -/
def Obligations.SetFormatInEveryState : Prop :=
  ∀ (s : State) (bpp imgType : Byte),
    decode (.regWrite 0x00#5 (0x10000000#32 ||| imgType.setWidth 32 <<< 8 ||| bpp.setWidth 32)) =
      .ok (.setFormat bpp imgType) ∧
    (s.runState = .error → exec (.setFormat bpp imgType) s = .next s) ∧
    (s.runState = .acqA ∨ s.runState = .acqB ∨ s.runState = .emit →
      exec (.setFormat bpp imgType) s = .next { s with runState := .error, errCode := .illegalCommand }) ∧
    (s.runState = .idle ∨ s.runState = .done →
      exec (.setFormat bpp imgType) s = .next { s with cfgBpp := bpp, cfgType := imgType })

/-- O9. SET_WIDTH in every state, its word, and what the corner values of R81 do to the next START (with H = 0 that START
reports the height, R118). -/
def Obligations.SetWidthInEveryState : Prop :=
  ∀ (s : State) (w : Half),
    decode (.regWrite 0x00#5 (0x20000000#32 ||| w.setWidth 32)) = .ok (.setWidth w) ∧
    (s.runState = .error → exec (.setWidth w) s = .next s) ∧
    (s.runState = .acqA ∨ s.runState = .acqB ∨ s.runState = .emit →
      exec (.setWidth w) s = .next { s with runState := .error, errCode := .illegalCommand }) ∧
    (s.runState = .idle ∨ s.runState = .done → exec (.setWidth w) s = .next { s with cfgWidth := w } ∧
      (outDimWord { s with cfgWidth := w }).toNat % 2 ^ 16 = (w.toNat + 1) / 2 ∧
      (w = 0#16 → ∃ u, exec .start { s with cfgWidth := w } = .next u ∧ u.runState = .error ∧
        u.errCode = .badInputFormat) ∧
      (s.maxWidth.toNat < w.toNat → s.cfgHeight ≠ 0#16 → ∃ u, exec .start { s with cfgWidth := w } = .next u ∧
        u.runState = .error ∧ u.errCode = .unsupportedInputFormat))

/-- O10. SET_HEIGHT in every state, its word, and what the corner values of R82 do to the next START. -/
def Obligations.SetHeightInEveryState : Prop :=
  ∀ (s : State) (h : Half),
    decode (.regWrite 0x00#5 (0x30000000#32 ||| h.setWidth 32)) = .ok (.setHeight h) ∧
    (s.runState = .error → exec (.setHeight h) s = .next s) ∧
    (s.runState = .acqA ∨ s.runState = .acqB ∨ s.runState = .emit →
      exec (.setHeight h) s = .next { s with runState := .error, errCode := .illegalCommand }) ∧
    (s.runState = .idle ∨ s.runState = .done → exec (.setHeight h) s = .next { s with cfgHeight := h } ∧
      (outDimWord { s with cfgHeight := h }).toNat / 2 ^ 16 = (h.toNat + 1) / 2 ∧
      (h = 0#16 → ∃ u, exec .start { s with cfgHeight := h } = .next u ∧ u.runState = .error ∧
        u.errCode = .badInputFormat) ∧
      (∀ u, exec .start { s with cfgHeight := h } = .next u → u.runState = .acqA → (u.selfPair = true ↔ h = 1#16)))

/-- O11. An accepted START whose five checks pass: N, ACQ_A, SELF_PAIR, and the clearing; nothing else changes
(R119, with the table of R116 and the clearing of R117). -/
def Obligations.StartDispatchesSupportedFrames : Prop :=
  ∀ (s : State) (lanes : BitVec 3),
    (s.runState = .idle ∨ s.runState = .done) →
    s.cfgWidth ≠ 0#16 → s.cfgHeight ≠ 0#16 → s.cfgWidth.toNat ≤ s.maxWidth.toNat →
    (s.cfgBpp, s.cfgType, lanes) ∈
      [(8#8, 3#8, 1#3), (16#8, 3#8, 2#3), (24#8, 2#8, 3#3), (32#8, 2#8, 4#3)] →
    exec .start s = .next { s with
      runState := .acqA, n := lanes, selfPair := decide (s.cfgHeight = 1#16)
      inRows := 0#16, outRows := 0#16, inPos := 0#18, outPos := 0#17 }

/-- O12. An accepted START whose checks fail: the first failing check's code, after the clearing of R117 and nothing else
(R118). -/
def Obligations.StartRaisesTheFirstFailingCheck : Prop :=
  ∀ (s : State) (code : ErrCode),
    (s.runState = .idle ∨ s.runState = .done) →
    (if s.cfgWidth = 0#16 then code = .badInputFormat
     else if s.cfgHeight = 0#16 then code = .badInputFormat
     else if s.cfgBpp ∉ [8#8, 16#8, 24#8, 32#8] then code = .unsupportedInputFormat
     else if s.cfgType ≠ (if s.cfgBpp = 8#8 ∨ s.cfgBpp = 16#8 then 3#8 else 2#8) then code = .unsupportedInputFormat
     else s.maxWidth.toNat < s.cfgWidth.toNat ∧ code = .unsupportedInputFormat) →
    exec .start s = .next { s with
      runState := .error, errCode := code, n := 0#3, selfPair := false
      inRows := 0#16, outRows := 0#16, inPos := 0#18, outPos := 0#17 }

/-- O13. START during a run is ILLEGAL_COMMAND and ends the frame; START in ERROR is ignored (R78, R83). -/
def Obligations.StartOutsideIdleAndDone : Prop :=
  ∀ s : State,
    (s.runState = .error → exec .start s = .next s) ∧
    (s.runState = .acqA ∨ s.runState = .acqB ∨ s.runState = .emit →
      exec .start s = .next { s with runState := .error, errCode := .illegalCommand })

/-- O14. ABORT in every state: IDLE, the run state and the error cleared, the row buffers without a value, the
configuration and everything else kept (R84). -/
def Obligations.AbortReturnsToIdle : Prop :=
  ∀ s : State, exec .abort s = .next { s with
    runState := .idle, errCode := .none, n := 0#3, selfPair := false
    inRows := 0#16, outRows := 0#16, inPos := 0#18, outPos := 0#17
    rowA := [], rowB := [], rowOut := [] }

/-- O15. Reset in every state: every element of the block at its reset value (R137); MAX_WIDTH, the bytes already taken, the
edges to come and the model's counter kept; under `rst` = 1 no handshake is offered, and whatever else the edge carries is
ignored. That a reset forgets the waiting byte and an unread answer, and keeps the counter and the list of taken bytes, is the
model's choice (notes/assumptions/4.md, 15.md, 8.md, 14.md). -/
def Obligations.ResetGivesTheResetValues : Prop :=
  ∀ s : State, exec .reset s = .next { s with
    cfgBpp := 0#8, cfgType := 0#8, cfgWidth := 0#16, cfgHeight := 0#16
    runState := .idle, errCode := .none, n := 0#3, selfPair := false
    inRows := 0#16, outRows := 0#16, inPos := 0#18, outPos := 0#17
    rowA := [], rowB := [], rowOut := [], readResp := none, waiting := none } ∧
  (portsOut true s).inReady = false ∧ (portsOut true s).outValid = false ∧
  ∀ (p : Pins) (rest : List Pins), s.pending = p :: rest → p.rst = true →
    step s = exec .reset { s with pending := rest, freeCount := s.freeCount + 1 }

/-- O16. The state after reset is what the Reset event leaves, its registers read as R44 says, and no stream handshake is
offered. That `out_last` is 0 there, where R44 lists it as 0 and 93_implementation_defined.md entry 7 as any value, is the
model's choice (notes/assumptions/10.md), as are the port fields of State.reset (notes/assumptions/4.md, 15.md). -/
def Obligations.ResetStateReadsAsSpecified : Prop :=
  exec .reset State.reset = .next State.reset ∧
  (∀ r ∈ [HostReg.status, .format, .dim, .outDim, .progress],
    exec (readInstr r) State.reset = .next { State.reset with readResp := some 0x00000000#32 }) ∧
  exec .rdParam State.reset = .next { State.reset with readResp := some 0x0000FFFF#32 } ∧
  (portsOut false State.reset).inReady = false ∧ (portsOut false State.reset).outValid = false ∧
  (portsOut false State.reset).outLast = false

/-! ### Register reads -/

/-- O17. RD STATUS answers each field of R37 and changes nothing else (R37, R88). -/
def Obligations.ReadStatusShowsItsFields : Prop :=
  ∀ s : State, ∃ v : Word, exec .rdStatus s = .next { s with readResp := some v } ∧
    (s.runState = .idle → v.extractLsb' 0 6 = 0b000000#6) ∧
    (s.runState = .acqA → v.extractLsb' 0 6 = 0b001001#6) ∧
    (s.runState = .acqB → v.extractLsb' 0 6 = 0b001010#6) ∧
    (s.runState = .emit → v.extractLsb' 0 6 = 0b001011#6) ∧
    (s.runState = .done → v.extractLsb' 0 6 = 0b010100#6) ∧
    (s.runState = .error → v.extractLsb' 0 6 = 0b100101#6) ∧
    v.extractLsb' 6 2 = 0#2 ∧
    (s.errCode = .none → v.extractLsb' 8 4 = 0#4) ∧
    (s.errCode = .badInputFormat → v.extractLsb' 8 4 = 6#4) ∧
    (s.errCode = .unsupportedInputFormat → v.extractLsb' 8 4 = 7#4) ∧
    (s.errCode = .illegalCommand → v.extractLsb' 8 4 = 8#4) ∧
    v.extractLsb' 12 3 = s.n ∧ v.getLsbD 15 = s.selfPair ∧ v.extractLsb' 16 16 = 0#16

/-- O18. The other register reads answer their words and change nothing else (R87, R89, R90, R92, R93, R94). -/
def Obligations.RegisterReadsShowTheirFields : Prop :=
  ∀ s : State, ∃ format dim progress param : Word,
    exec .rdCmd s = .next { s with readResp := some 0x00000000#32 } ∧
    exec .rdRsvd s = .next { s with readResp := some 0x00000000#32 } ∧
    exec .rdFormat s = .next { s with readResp := some format } ∧
    format.toNat = s.cfgType.toNat * 2 ^ 8 + s.cfgBpp.toNat ∧
    exec .rdDim s = .next { s with readResp := some dim } ∧
    dim.toNat = s.cfgHeight.toNat * 2 ^ 16 + s.cfgWidth.toNat ∧
    exec .rdProgress s = .next { s with readResp := some progress } ∧
    progress.toNat = s.outRows.toNat * 2 ^ 16 + s.inRows.toNat ∧
    exec .rdParam s = .next { s with readResp := some param } ∧
    param.toNat = s.maxWidth.toNat ∧ State.reset.maxWidth = 0xFFFF#16

/-- O19. RD OUT_DIM answers ⌈H/2⌉ and ⌈W/2⌉ "at every moment, with or without a run" (R40, R91). -/
def Obligations.ReadOutDimShowsTheHalvedDimensions : Prop :=
  ∀ s : State, ∃ v : Word, exec .rdOutDim s = .next { s with readResp := some v } ∧
    v.toNat % 2 ^ 16 = (s.cfgWidth.toNat + 1) / 2 ∧ v.toNat / 2 ^ 16 = (s.cfgHeight.toNat + 1) / 2

/-- O20. A read has no side effect, so the same read again answers the same (R60). -/
def Obligations.ReadsHaveNoSideEffect : Prop :=
  ∀ (s : State) (r : HostReg), ∃ v : Word,
    exec (readInstr r) s = .next { s with readResp := some v } ∧
    exec (readInstr r) { s with readResp := some v } = .next { s with readResp := some v }

/-! ### Row acquisition -/

/-- O21. Where the handshake is not offered no beat happens and nothing changes: an input beat outside ACQ_A and ACQ_B, an
output beat outside EMIT (R34, R100, R114). That exec answers the state unchanged there, where the spec says no event
exists, is the model's choice (notes/assumptions/3.md). -/
def Obligations.BeatsWaitWhereNotEnabled : Prop :=
  ∀ (s : State) (d : Byte) (last : Bool),
    (s.runState ≠ .acqA → s.runState ≠ .acqB → exec (.inBeat d last) s = .next s) ∧
    (s.runState ≠ .emit → exec .outBeat s = .next s)

/-- O22. `in_last` = 1 on a byte that is not the frame's final byte raises BAD_INPUT_FORMAT; no byte is stored, no counter
advances, taken output stays; a beat with last = 0 never raises an error (R103). -/
def Obligations.EarlyLastRaisesBadInputFormat : Prop :=
  ∀ (s : State) (d : Byte), (s.runState = .acqA ∨ s.runState = .acqB) →
    (¬ (s.inRows.toNat + 1 = s.height ∧ s.inPos.toNat + 1 = s.rowBytes) →
      exec (.inBeat d true) s = .next { s with runState := .error, errCode := .badInputFormat }) ∧
    (∀ t, exec (.inBeat d false) s = .next t → t.runState ≠ .error)

/-- O23. A byte inside a row: it goes to the slot of IN_POS, every other slot keeps its value, IN_POS advances by one, and
nothing else changes (R100). -/
def Obligations.InBeatStoresItsByte : Prop :=
  ∀ (s : State) (d : Byte), Inv s → s.inPos.toNat + 1 < s.rowBytes →
    (s.runState = .acqA → ∃ row pos,
      exec (.inBeat d false) s = .next { s with rowA := row, inPos := pos } ∧ pos.toNat = s.inPos.toNat + 1 ∧
      ∀ x, row.read x =
        if x = slotAddr (s.inPos.toNat / s.lanes) (s.inPos.toNat % s.lanes) then some d else s.rowA.read x) ∧
    (s.runState = .acqB → ∃ row pos,
      exec (.inBeat d false) s = .next { s with rowB := row, inPos := pos } ∧ pos.toNat = s.inPos.toNat + 1 ∧
      ∀ x, row.read x =
        if x = slotAddr (s.inPos.toNat / s.lanes) (s.inPos.toNat % s.lanes) then some d else s.rowB.read x)

/-- O24. The last byte of the first row of a pair: the row is padded, IN_ROWS counts it and ACQ_B is entered; nothing else
changes (R25, R100, R101, R102). -/
def Obligations.FirstRowOfPairEntersAcqB : Prop :=
  ∀ (s : State) (d : Byte), Inv s → s.runState = .acqA → s.inPos.toNat + 1 = s.rowBytes → s.selfPair = false →
    ∃ row rows,
      exec (.inBeat d false) s =
        .next { s with runState := .acqB, rowA := row, inRows := rows, inPos := 0#18 } ∧
      rows.toNat = s.inRows.toNat + 1 ∧
      (∀ j < s.width, ∀ c < s.lanes, row.read (slotAddr j c) =
        if slotAddr j c = slotAddr (s.inPos.toNat / s.lanes) (s.inPos.toNat % s.lanes) then some d
        else s.rowA.read (slotAddr j c)) ∧
      (s.width % 2 = 1 → ∀ c < s.lanes, row.read (slotAddr s.width c) = row.read (slotAddr (s.width - 1) c)) ∧
      (∀ x, ¬ (x / 4 < s.rowLen ∧ x % 4 < s.lanes) → row.read x = s.rowA.read x)

/-- O25. The last byte of a self-paired row: the row is padded and reduced against itself, each output component is the
rounded horizontal average, EMIT is entered, and nothing else changes (R101, R102, R108, R112). -/
def Obligations.SelfPairedRowIsReducedAgainstItself : Prop :=
  ∀ (s : State) (d : Byte) (last : Bool), Inv s → s.runState = .acqA → s.inPos.toNat + 1 = s.rowBytes →
    s.selfPair = true →
    ∃ row out rows,
      exec (.inBeat d last) s =
        .next { s with runState := .emit, rowA := row, rowOut := out, inRows := rows, outPos := 0#17 } ∧
      rows.toNat = s.inRows.toNat + 1 ∧
      (∀ j < s.width, ∀ c < s.lanes, row.read (slotAddr j c) =
        if slotAddr j c = slotAddr (s.inPos.toNat / s.lanes) (s.inPos.toNat % s.lanes) then some d
        else s.rowA.read (slotAddr j c)) ∧
      (s.width % 2 = 1 → ∀ c < s.lanes, row.read (slotAddr s.width c) = row.read (slotAddr (s.width - 1) c)) ∧
      (∀ x, ¬ (x / 4 < s.rowLen ∧ x % 4 < s.lanes) → row.read x = s.rowA.read x) ∧
      (∀ k < s.widthOut, ∀ c < s.lanes, ∃ a b o : Byte,
        row.read (slotAddr (2 * k) c) = some a ∧ row.read (slotAddr (2 * k + 1) c) = some b ∧
        out.read (slotAddr k c) = some o ∧ o.toNat = (a.toNat + b.toNat + 1) / 2) ∧
      (∀ x, ¬ (x / 4 < s.widthOut ∧ x % 4 < s.lanes) → out.read x = s.rowOut.read x)

/-- O26. The last byte of the second row of a pair: the row is padded, the pair is reduced component by component with
(sum + 2) >> 2, EMIT is entered, and nothing else changes (R101, R102, R108). -/
def Obligations.SecondRowCompletesAndReducesThePair : Prop :=
  ∀ (s : State) (d : Byte) (last : Bool), Inv s → s.runState = .acqB → s.inPos.toNat + 1 = s.rowBytes →
    (last = true → s.inRows.toNat + 1 = s.height) →
    ∃ row out rows,
      exec (.inBeat d last) s =
        .next { s with runState := .emit, rowB := row, rowOut := out, inRows := rows, outPos := 0#17 } ∧
      rows.toNat = s.inRows.toNat + 1 ∧
      (∀ j < s.width, ∀ c < s.lanes, row.read (slotAddr j c) =
        if slotAddr j c = slotAddr (s.inPos.toNat / s.lanes) (s.inPos.toNat % s.lanes) then some d
        else s.rowB.read (slotAddr j c)) ∧
      (s.width % 2 = 1 → ∀ c < s.lanes, row.read (slotAddr s.width c) = row.read (slotAddr (s.width - 1) c)) ∧
      (∀ x, ¬ (x / 4 < s.rowLen ∧ x % 4 < s.lanes) → row.read x = s.rowB.read x) ∧
      (∀ k < s.widthOut, ∀ c < s.lanes, ∃ p q r t o : Byte,
        s.rowA.read (slotAddr (2 * k) c) = some p ∧ s.rowA.read (slotAddr (2 * k + 1) c) = some q ∧
        row.read (slotAddr (2 * k) c) = some r ∧ row.read (slotAddr (2 * k + 1) c) = some t ∧
        out.read (slotAddr k c) = some o ∧ o.toNat = (p.toNat + q.toNat + r.toNat + t.toNat + 2) / 4) ∧
      (∀ x, ¬ (x / 4 < s.widthOut ∧ x % 4 < s.lanes) → out.read x = s.rowOut.read x)

/-- O27. The next input byte is byte t of the frame in the order of R54: its component, pixel, stored row and row buffer; the
row being acquired in ACQ_A is the self-paired one exactly when all PAIRS row pairs are done (R17, R105). -/
def Obligations.InputBytesFollowFrameOrder : Prop :=
  ∀ s : State, Inv s → (s.runState = .acqA ∨ s.runState = .acqB) →
    laneOf s.inPos.toNat s.lanes = s.inIndex % s.lanes ∧
    pixelOf s.inPos.toNat s.lanes = s.inIndex % s.rowBytes / s.lanes ∧
    s.inRows.toNat = s.inIndex / s.rowBytes ∧
    (s.runState = .acqA ↔ s.inIndex / s.rowBytes % 2 = 0) ∧
    (s.height % 2 = 1 → s.inIndex / s.rowBytes = s.height - 1 → s.runState = .acqA ∧ s.selfPair = true) ∧
    (s.runState = .acqA → (s.selfPair = true ↔ s.oddHeight = 1 ∧ s.inIndex / s.rowBytes = 2 * s.pairs))

/-! ### Reduction and output -/

/-- O28. The per-component law: the quarter of the exact sum, rounded to nearest, ties up (R109). -/
def Obligations.AverageRoundsToNearestTiesUp : Prop :=
  ∀ p q r s : Byte,
    let sum := p.toNat + q.toNat + r.toNat + s.toNat
    (avg4 p q r s).toNat = (sum + 2) / 4 ∧
    (avg4 p q r s).toNat = if sum % 4 < 2 then sum / 4 else sum / 4 + 1

/-- O29. Uniform blocks keep their value; a self-paired block is the horizontal, a padded block the vertical, rounded
average; padded and self-paired is the value itself (R111, R112, R113). -/
def Obligations.AverageOfRepeatedSamples : Prop :=
  ∀ a b : Byte,
    avg4 a a a a = a ∧ (avg4 a b a b).toNat = (a.toNat + b.toNat + 1) / 2 ∧
    (avg4 a a b b).toNat = (a.toNat + b.toNat + 1) / 2

/-- O30. Lane c of the result depends only on lane c of the inputs; the reduction never writes lanes from N on; and OutBeat
never reads them: of two states in EMIT that differ only in ROW_OUT slots of lanes from N on, OutBeat delivers the same beat
and leaves the same state but for those slots, and the port presents the same byte (R110). -/
def Obligations.LanesAreIndependent : Prop :=
  (∀ (px outPx lanes pixels c : Nat) (a b out o a' b' out' o' : Memory), c < lanes →
    reduceRows px outPx a b lanes pixels out = .ok o → reduceRows px outPx a' b' lanes pixels out' = .ok o' →
    (∀ j, a.read (slotAddr j c) = a'.read (slotAddr j c)) → (∀ j, b.read (slotAddr j c) = b'.read (slotAddr j c)) →
    ∀ k < pixels, o.read (slotAddr k c) = o'.read (slotAddr k c)) ∧
  (∀ (px outPx lanes pixels c k : Nat) (a b out o : Memory), lanes ≤ c → c < 4 →
    reduceRows px outPx a b lanes pixels out = .ok o → o.read (slotAddr k c) = out.read (slotAddr k c)) ∧
  (∀ (s : State) (out : Memory), Inv s → s.runState = .emit →
    (∀ k, ∀ c < s.lanes, out.read (slotAddr k c) = s.rowOut.read (slotAddr k c)) →
    ∃ t, exec .outBeat s = .next t ∧ exec .outBeat { s with rowOut := out } = .next { t with rowOut := out } ∧
      (∃ beat, t.outStream = s.outStream ++ [beat]) ∧
      (portsOut false { s with rowOut := out }).outData = (portsOut false s).outData)

/-- O31. The byte EMIT presents is the four-sample average of the rows held: of ROW_A and ROW_B, or of ROW_A with itself
(R34, R46, R102, R108). -/
def Obligations.PresentedByteIsTheBlockAverage : Prop :=
  ∀ s : State, Inv s → s.runState = .emit → ∃ p q r t : Byte,
    s.rowA.read (slotAddr (2 * (s.outPos.toNat / s.lanes)) (s.outPos.toNat % s.lanes)) = some p ∧
    s.rowA.read (slotAddr (2 * (s.outPos.toNat / s.lanes) + 1) (s.outPos.toNat % s.lanes)) = some q ∧
    (if s.selfPair then s.rowA else s.rowB).read
      (slotAddr (2 * (s.outPos.toNat / s.lanes)) (s.outPos.toNat % s.lanes)) = some r ∧
    (if s.selfPair then s.rowA else s.rowB).read
      (slotAddr (2 * (s.outPos.toNat / s.lanes) + 1) (s.outPos.toNat % s.lanes)) = some t ∧
    (portsOut false s).outData.toNat = (p.toNat + q.toNat + r.toNat + t.toNat + 2) / 4

/-- O32. OutBeat in EMIT delivers the presented byte with LAST, and advances: within a row, to ACQ_A after a row, to DONE
after the last row; nothing else changes (R25, R114). -/
def Obligations.OutBeatDeliversAndAdvances : Prop :=
  ∀ s : State, Inv s → s.runState = .emit → ∃ d : Byte,
    s.rowOut.read (slotAddr (s.outPos.toNat / s.lanes) (s.outPos.toNat % s.lanes)) = some d ∧
    (s.outPos.toNat + 1 ≠ s.outRowBytes → ∃ pos, pos.toNat = s.outPos.toNat + 1 ∧
      exec .outBeat s = .next { s with outPos := pos, outStream := s.outStream ++ [⟨d, false⟩] }) ∧
    (s.outPos.toNat + 1 = s.outRowBytes → s.outRows.toNat + 1 ≠ s.heightOut → ∃ rows,
      rows.toNat = s.outRows.toNat + 1 ∧
      exec .outBeat s = .next { s with
        runState := .acqA, outRows := rows, inPos := 0#18, selfPair := decide (s.inRows.toNat + 1 = s.height)
        outStream := s.outStream ++ [⟨d, false⟩] }) ∧
    (s.outPos.toNat + 1 = s.outRowBytes → s.outRows.toNat + 1 = s.heightOut → ∃ rows,
      rows.toNat = s.outRows.toNat + 1 ∧
      exec .outBeat s = .next { s with
        runState := .done, outRows := rows, outStream := s.outStream ++ [⟨d, true⟩] })

/-- O33. R45's clause for DONE: as DONE is entered, IN_ROWS = H, OUT_ROWS = H_OUT and 1 ≤ N ≤ 4; after reset the clause holds,
and from the invariant every event keeps it but a SET_HEIGHT in DONE (R78, R82; notes/assumptions/9.md), of which O59 says
that it cannot. -/
def Obligations.DoneIsEnteredWithEveryRowCounted : Prop :=
  (∀ (s t : State) (i : Instr), Inv s → s.runState ≠ .done → exec i s = .next t → t.runState = .done →
    i = .outBeat ∧ t.inRows.toNat = t.height ∧ t.outRows.toNat = t.heightOut ∧ 1 ≤ t.lanes ∧ t.lanes ≤ 4) ∧
  RowsCounted State.reset ∧
  (∀ (s t : State) (i : Instr), Inv s → RowsCounted s → (s.runState = .done → ∀ h, i ≠ .setHeight h) →
    exec i s = .next t → RowsCounted t)

/-- O34. The presented output byte is byte u of the output frame in the order of R55; its row is the self-paired one exactly
when it is row PAIRS of an odd-height image, every stored row it needs has been counted, and each component of ROW_OUT is
the rounded quarter of the four samples of the rows held: ROW_A with ROW_B, or ROW_A with itself (R17, R46, R55, R108). -/
def Obligations.OutputBytesFollowFrameOrder : Prop :=
  ∀ s : State, Inv s → s.runState = .emit →
    laneOf s.outPos.toNat s.lanes = s.outIndex % s.lanes ∧
    pixelOf s.outPos.toNat s.lanes = s.outIndex % s.outRowBytes / s.lanes ∧
    s.outRows.toNat = s.outIndex / s.outRowBytes ∧
    s.outIndex < s.widthOut * s.heightOut * s.lanes ∧
    (s.selfPair = true ↔ 2 * s.outRows.toNat + 1 = s.height) ∧
    (s.selfPair = true ↔ s.oddHeight = 1 ∧ s.outRows.toNat = s.pairs) ∧
    s.inRows.toNat = min (2 * s.outRows.toNat + 2) s.height ∧
    (∀ k < s.widthOut, ∀ c < s.lanes, ∃ p q r t o : Byte,
      s.rowA.read (slotAddr (2 * k) c) = some p ∧ s.rowA.read (slotAddr (2 * k + 1) c) = some q ∧
      (if s.selfPair then s.rowA else s.rowB).read (slotAddr (2 * k) c) = some r ∧
      (if s.selfPair then s.rowA else s.rowB).read (slotAddr (2 * k + 1) c) = some t ∧
      s.rowOut.read (slotAddr k c) = some o ∧ o.toNat = (p.toNat + q.toNat + r.toNat + t.toNat + 2) / 4)

/-! ### Errors -/

/-- O35. Error entry writes STATE and ERR_CODE, and nothing else; a failing START has made only the clearing of R117; then no
stream handshake is offered (R126). -/
def Obligations.ErrorsArePrecise : Prop :=
  ∀ (s t : State) (i : Instr), s.runState ≠ .error → exec i s = .next t → t.runState = .error →
    (t = { s with runState := .error, errCode := t.errCode } ∨
      (i = .start ∧ (s.runState = .idle ∨ s.runState = .done) ∧
        t = { s with
          runState := .error, errCode := t.errCode, n := 0#3, selfPair := false
          inRows := 0#16, outRows := 0#16, inPos := 0#18, outPos := 0#17 })) ∧
    t.errCode ≠ .none ∧ (portsOut false t).inReady = false ∧ (portsOut false t).outValid = false

/-- O36. In ERROR every event but ABORT and reset completes and changes no state of the block (a read still answers); ABORT
and reset enter IDLE with ERR_CODE cleared, ABORT keeping the configuration and reset clearing it (R128). -/
def Obligations.ErrorIsLeftOnlyByAbortAndReset : Prop :=
  ∀ s : State, s.runState = .error →
    (∀ i, i ≠ .abort → i ≠ .reset → ∃ resp, exec i s = .next { s with readResp := resp }) ∧
    (∃ t, exec .abort s = .next t ∧ t.runState = .idle ∧ t.errCode = .none ∧ t.cfgBpp = s.cfgBpp ∧
      t.cfgType = s.cfgType ∧ t.cfgWidth = s.cfgWidth ∧ t.cfgHeight = s.cfgHeight) ∧
    (∃ t, exec .reset s = .next t ∧ t.runState = .idle ∧ t.errCode = .none ∧ t.cfgBpp = 0#8 ∧
      t.cfgType = 0#8 ∧ t.cfgWidth = 0#16 ∧ t.cfgHeight = 0#16)

/-- O37. Which event raises which code (R123): 6 by START or an input beat, 7 by START, 8 by a command. -/
def Obligations.ErrorCodesAndTheirCauses : Prop :=
  ∀ (s t : State) (i : Instr), s.runState ≠ .error → exec i s = .next t → t.runState = .error →
    (t.errCode = .badInputFormat ∧
      ((i = .start ∧ (s.cfgWidth = 0#16 ∨ s.cfgHeight = 0#16) ∧ t.n = 0#3 ∧ t.inRows = 0#16 ∧ t.outRows = 0#16) ∨
       (∃ d, i = .inBeat d true ∧ s.atFrameEnd = false ∧ t.n = s.n ∧ t.inRows = s.inRows ∧ t.outRows = s.outRows))) ∨
    (t.errCode = .unsupportedInputFormat ∧ i = .start ∧ t.n = 0#3 ∧ t.inRows = 0#16 ∧ t.outRows = 0#16 ∧
      (s.cfgBpp ∉ [8#8, 16#8, 24#8, 32#8] ∨ requiredType s.cfgBpp ≠ some s.cfgType ∨
        s.maxWidth.toNat < s.cfgWidth.toNat)) ∨
    (t.errCode = .illegalCommand ∧ t.n = s.n ∧ t.selfPair = s.selfPair ∧ t.inRows = s.inRows ∧ t.outRows = s.outRows ∧
      ((∃ w, i = .illegal w ∨ i = .illegalHigh w) ∨
       ((s.runState = .acqA ∨ s.runState = .acqB ∨ s.runState = .emit) ∧
        ((∃ bpp imgType, i = .setFormat bpp imgType) ∨ (∃ w, i = .setWidth w) ∨ (∃ h, i = .setHeight h) ∨ i = .start))))

/-! ### Rules of the whole block -/

/-- O38. Only SET_FORMAT, SET_WIDTH and SET_HEIGHT write the configuration registers, and reset sets each to 0 (R24). -/
def Obligations.OnlySetCommandsWriteTheConfiguration : Prop :=
  ∀ (i : Instr) (s t : State), exec i s = .next t →
    (i = .reset ∧ t.cfgBpp = 0#8 ∧ t.cfgType = 0#8 ∧ t.cfgWidth = 0#16 ∧ t.cfgHeight = 0#16) ∨
    (i ≠ .reset ∧
      ((t.cfgBpp = s.cfgBpp ∧ t.cfgType = s.cfgType) ∨ ∃ bpp imgType, i = .setFormat bpp imgType) ∧
      (t.cfgWidth = s.cfgWidth ∨ ∃ w, i = .setWidth w) ∧
      (t.cfgHeight = s.cfgHeight ∨ ∃ h, i = .setHeight h))

/-- O39. Only error entry writes ERR_CODE, only ABORT and reset clear it, and it is 0 whenever STATE ≠ ERROR (R26). -/
def Obligations.OnlyErrorEntryWritesTheErrorCode : Prop :=
  ∀ (i : Instr) (s t : State), Inv s → exec i s = .next t →
    (t.errCode = s.errCode ∨ (s.runState ≠ .error ∧ t.runState = .error) ∨
      ((i = .abort ∨ i = .reset) ∧ t.errCode = .none)) ∧
    (t.runState ≠ .error → t.errCode = .none)

/-- O40. ABORT and reset write 0 to N, an accepted START writes 0 or, as it dispatches, 1 to 4, and nothing else writes it
(R27). -/
def Obligations.OnlyStartAbortAndResetWriteN : Prop :=
  ∀ (i : Instr) (s t : State), exec i s = .next t →
    (i = .abort ∨ i = .reset → t.n = 0#3) ∧
    (i = .start → s.runState = .idle ∨ s.runState = .done →
      (t.runState = .error ∧ t.n = 0#3) ∨ (t.runState = .acqA ∧ 1 ≤ t.lanes ∧ t.lanes ≤ 4)) ∧
    (i ≠ .abort → i ≠ .reset → ¬ (i = .start ∧ (s.runState = .idle ∨ s.runState = .done)) → t.n = s.n)

/-- O41. W, H and N (and the format) do not change from one run state to the next (R45, R78). -/
def Obligations.RunKeepsItsConfiguration : Prop :=
  ∀ (i : Instr) (s t : State), busyFlag s.runState = true → exec i s = .next t → busyFlag t.runState = true →
    t.cfgWidth = s.cfgWidth ∧ t.cfgHeight = s.cfgHeight ∧ t.n = s.n ∧ t.cfgBpp = s.cfgBpp ∧ t.cfgType = s.cfgType

/-- O42. In EMIT no event but OutBeat, ABORT, an error or reset changes OUT_POS, OUT_ROWS or ROW_OUT, so the presented
byte and its LAST are held (R48). -/
def Obligations.EmitHoldsItsOutput : Prop :=
  ∀ (i : Instr) (s t : State), s.runState = .emit → exec i s = .next t → i ≠ .outBeat → i ≠ .abort → i ≠ .reset →
    t.runState ≠ .error →
    t.runState = .emit ∧ t.outPos = s.outPos ∧ t.outRows = s.outRows ∧ t.rowOut = s.rowOut ∧
    (portsOut false t).outData = (portsOut false s).outData ∧ (portsOut false t).outLast = (portsOut false s).outLast

/-- O43. The handshake outputs as functions of the state, and never both 1 (R34). That `out_last` is 0 while `out_valid` = 0,
as R34 defines it though 93_implementation_defined.md entry 7 lists it as any value, is the model's choice
(notes/assumptions/10.md). -/
def Obligations.HandshakesFollowTheState : Prop :=
  ∀ s : State,
    ((portsOut false s).inReady = true ↔ s.runState = .acqA ∨ s.runState = .acqB) ∧
    ((portsOut false s).outValid = true ↔ s.runState = .emit) ∧
    (∀ d, s.runState = .emit → s.rowOut.read (slotAddr (s.outPos.toNat / s.lanes) (s.outPos.toNat % s.lanes)) = some d →
      (portsOut false s).outData = d) ∧
    ((portsOut false s).outLast = true ↔
      s.runState = .emit ∧ s.outPos.toNat + 1 = s.outRowBytes ∧ s.outRows.toNat + 1 = s.heightOut) ∧
    (∀ rst, ¬ ((portsOut rst s).inReady = true ∧ (portsOut rst s).outValid = true)) ∧
    (portsOut true s).inReady = false ∧ (portsOut true s).outValid = false

/-- O44. From the invariant every event the host can issue answers a next state: no event faults and none is refused (R21,
R46). -/
def Obligations.EveryEventCompletesFromTheInvariant : Prop :=
  ∀ (i : Instr) (s : State), Inv s → ∃ t, exec i s = .next t

/-! ### The clock edge -/

/-- O45. A step runs the decoded instruction: an edge that carries the one transaction of i, and does not change a byte
left waiting, is i's meaning at the state with that edge consumed, an old read answer gone and the waiting byte latched.
The latching is the model's choice (notes/assumptions/1.md, 4.md, 15.md, 20.md). -/
def Obligations.StepRunsTheDecodedInstruction : Prop :=
  ∀ (s : State) (t : Transaction) (i : Instr) (rest : List Pins), decode t = .ok i → s.pending = t.pins :: rest →
    (t.pins.inValid = true → s.waiting = none ∨ s.waiting = some ⟨t.pins.inData, t.pins.inLast⟩) →
    step s = exec i { s with
      pending := rest, readResp := none, freeCount := s.freeCount + 1
      waiting := if t.pins.inValid = true ∧ s.runState ≠ .acqA ∧ s.runState ≠ .acqB
        then some ⟨t.pins.inData, t.pins.inLast⟩ else none }

/-- O46. The events of one edge take effect in the order of R62: reset alone; the read of the state at the start of the
cycle; at most one beat, judged against that state; then the write. What the edge does to the waiting byte, to the read
answer and to the model's counter, and that a changed offer is refused, is the model's choice (notes/assumptions/4.md, 15.md,
8.md, 20.md). -/
def Obligations.EdgeEventsTakeEffectInOrder : Prop :=
  ∀ (s t : State) (p : Pins) (rest : List Pins),
    (p.rst = true → s.pending = p :: rest →
      step s = .next { s with
        cfgBpp := 0#8, cfgType := 0#8, cfgWidth := 0#16, cfgHeight := 0#16
        runState := .idle, errCode := .none, n := 0#3, selfPair := false
        inRows := 0#16, outRows := 0#16, inPos := 0#18, outPos := 0#17
        rowA := [], rowB := [], rowOut := [], readResp := none, waiting := none
        pending := rest, freeCount := s.freeCount + 1 }) ∧
    (p.rst = false → p.regRe = true → s.pending = p :: rest → step s = .next t →
      ∃ v u, exec (readInstr (regAt p.regAddr)) s = .next { s with readResp := some v } ∧
        step { s with pending := { p with regRe := false } :: rest } = .next u ∧ t = { u with readResp := some v }) ∧
    (p.rst = false → p.regRe = false → p.regWe = false → offerChanged p s = false → s.pending = p :: rest →
      step s =
        (if p.outReady && s.outValid then exec .outBeat
         else if p.inValid && s.inReady then exec (.inBeat p.inData p.inLast)
         else Host.Outcome.next) (latchPorts p { s with pending := rest })) ∧
    (p.rst = false → p.regRe = false → p.regWe = true → step { s with pending := { p with regWe := false } :: rest } = .next t →
      step { s with pending := p :: rest } = runTransaction (.regWrite p.regAddr p.regWdata) t)

/-- O47. A read's value is on `reg_rdata` during the following cycle, and is the value the register had at the start of the
read's cycle; it holds whatever the free values are (R49). -/
def Obligations.ReadDataIsOnThePortNextCycle : Prop :=
  ∀ (s t : State) (p : Pins) (rest : List Pins), s.pending = p :: rest → p.rst = false → p.regRe = true →
    step s = .next t →
    ∃ v, exec (readInstr (regAt p.regAddr)) s = .next { s with readResp := some v } ∧ (portsOut false t).regRdata = v

/-- O48. What the host may not do is refused by name: both register strobes at once, a misaligned offset, a changed
waiting byte (R49, R57, R145; the latched byte is the model's, notes/assumptions/4.md). -/
def Obligations.ForbiddenEdgesAreRefused : Prop :=
  ∀ (s : State) (p : Pins) (rest : List Pins), s.pending = p :: rest → p.rst = false →
    (p.regWe = true → p.regRe = true → step s = .refused .simultaneousAccess) ∧
    (¬ (p.regWe = true ∧ p.regRe = true) → p.inValid = true →
      (∃ b, s.waiting = some b ∧ b ≠ ⟨p.inData, p.inLast⟩) → step s = .refused .inputNotHeld) ∧
    (p.regRe = true → p.regWe = false → p.inValid = false → p.regAddr.toNat % 4 ≠ 0 →
      step s = .refused .misalignedAccess) ∧
    (p.regWe = true → p.regRe = false → p.inValid = false → p.outReady = false → p.regAddr.toNat % 4 ≠ 0 →
      step s = .refused .misalignedAccess)

/-- O49. A step is refused only for what O48 names: no instruction is refused by its meaning (R21, R57). -/
def Obligations.OnlyForbiddenEdgesAreRefused : Prop :=
  ∀ (s : State) (r : Refusal), step s = .refused r → ∃ p rest, s.pending = p :: rest ∧ p.rst = false ∧
    ((r = .simultaneousAccess ∧ p.regWe = true ∧ p.regRe = true) ∨
     (r = .inputNotHeld ∧ p.inValid = true ∧ ∃ b, s.waiting = some b ∧ b ≠ ⟨p.inData, p.inLast⟩) ∨
     (r = .misalignedAccess ∧ (p.regWe = true ∨ p.regRe = true) ∧ p.regAddr.toNat % 4 ≠ 0))

/-- O50. The block has no step of its own: with no edge to come nothing changes, and an edge with no strobe and no
handshake changes no state of the block, only what the host's side of the ports latches (R19, R136; the latches are the
model's, notes/assumptions/1.md, 4.md, 15.md). -/
def Obligations.QuietEdgesChangeNothing : Prop :=
  (∀ s : State, s.pending = [] → step s = .next s) ∧
  (∀ (s : State) (p : Pins) (rest : List Pins), s.pending = p :: rest → p.rst = false → p.regWe = false →
    p.regRe = false → p.inValid = false → (p.outReady = true → s.runState ≠ .emit) →
    step s = .next { s with pending := rest, readResp := none, waiting := none, freeCount := s.freeCount + 1 })

/-- O51. MAX_WIDTH never changes, the bytes already taken stay taken, and an edge takes at most one, only from EMIT (R42,
R48, R62, R84, R138). -/
def Obligations.TakenBytesStayTaken : Prop :=
  ∀ s t : State, step s = .next t →
    t.maxWidth = s.maxWidth ∧
    ∃ taken, t.outStream = s.outStream ++ taken ∧ taken.length ≤ 1 ∧ (taken ≠ [] → s.runState = .emit)

/-! ### Invariants and headline results -/

/-- O52. The state after reset satisfies the invariant (R44, R45, where DONE is the weaker relation of
notes/assumptions/9.md). -/
def Obligations.ResetSatisfiesTheInvariant : Prop := Inv State.reset

/-- O53. Every step keeps the model's invariant, from every state that satisfies it: R46, and R45 but for its clause for DONE,
where Inv has the weaker relation of notes/assumptions/9.md; O33 and O59 say what becomes of R45's own clause. -/
def Obligations.StepKeepsTheInvariant : Prop :=
  ∀ s t : State, Inv s → step s = .next t → Inv t

/-- O54. From the invariant (DONE as in notes/assumptions/9.md) no step faults: no rule reads a row-buffer slot that holds no
value (R31, R46). -/
def Obligations.NoStepFaultsFromTheInvariant : Prop :=
  ∀ (s : State) (f : Fault), Inv s → step s ≠ .fault f

/-- O55. An accepted START owes the whole frame: W·H·N bytes in and W_OUT·H_OUT·N bytes out (R106). -/
def Obligations.StartOwesTheWholeFrame : Prop :=
  ∀ s t : State, (s.runState = .idle ∨ s.runState = .done) → exec .start s = .next t → t.runState = .acqA →
    t.inputLeft = t.width * t.height * t.lanes ∧ t.outputLeft = t.widthOut * t.heightOut * t.lanes

/-- O56. Each accepted input byte pays one byte of the input owed, each taken output byte one of the output owed, and DONE
owes nothing (R106). -/
def Obligations.BeatsPayTheFrameByteByByte : Prop :=
  (∀ (s t : State) (d : Byte) (last : Bool), Inv s → (s.runState = .acqA ∨ s.runState = .acqB) →
    exec (.inBeat d last) s = .next t → t.runState ≠ .error →
    t.inputLeft + 1 = s.inputLeft ∧ t.outputLeft = s.outputLeft) ∧
  (∀ s t : State, Inv s → s.runState = .emit → exec .outBeat s = .next t →
    t.outputLeft + 1 = s.outputLeft ∧ t.inputLeft = s.inputLeft ∧
    (t.runState = .done → t.inputLeft = 0 ∧ t.outputLeft = 0))

/-- O57. Bounded liveness: from every run state, a host that keeps offering bytes and keeps taking output reaches DONE after
exactly the bytes still owed, having taken exactly the output still owed (R149). -/
def Obligations.DrivenFrameReachesDone : Prop :=
  ∀ (img : Nat → Byte) (s : State), Inv s → busyFlag s.runState = true →
    ∃ t, driveFrame img (s.inputLeft + s.outputLeft) s = .next t ∧ t.runState = .done ∧
      t.outStream.length = s.outStream.length + s.outputLeft

/-- O58. The block computes the box filter: a whole frame, driven from an accepted START, presents exactly the output frame
of its image, every byte the four-sample average at its place, LAST on the final byte alone (R54, R55, R101, R102, R105, R108,
R114, R149). -/
def Obligations.FrameOutputIsTheBoxFilter : Prop :=
  ∀ (img : Nat → Byte) (s a : State), (s.runState = .idle ∨ s.runState = .done) → exec .start s = .next a →
    a.runState = .acqA → Inv s →
    ∃ t, driveFrame img (a.width * a.height * a.lanes + a.widthOut * a.heightOut * a.lanes) a = .next t ∧
      t.runState = .done ∧ t.outStream = s.outStream ++ outputFrame img a.width a.height a.lanes

/-- O59. R45's clause for DONE does not hold of every later state in DONE: a SET_HEIGHT there (R82) changes H under the
counters (notes/assumptions/9.md). -/
def Obligations.SetHeightInDoneBreaksRowCountEquality : Prop :=
  ∀ (s : State) (h : Half), Inv s → s.runState = .done → h ≠ s.inRows →
    ∃ t, exec (.setHeight h) s = .next t ∧ Inv t ∧ t.runState = .done ∧ t.inRows.toNat ≠ t.height

/-- O60. CONFIG followed by START, as R77 expands them, dispatches each row of R116's table from IDLE and from DONE, whatever
was configured before (R77, R116, R119, R140). -/
def Obligations.ConfigThenStartDispatches : Prop :=
  ∀ (s : State) (bpp imgType : Byte) (lanes : BitVec 3) (w h : Half), s.runState = .idle ∨ s.runState = .done →
    (bpp, imgType, lanes) ∈ [(8#8, 3#8, 1#3), (16#8, 3#8, 2#3), (24#8, 2#8, 3#3), (32#8, 2#8, 4#3)] →
    w ≠ 0#16 → h ≠ 0#16 → w.toNat ≤ s.maxWidth.toNat →
    ∃ t, runTransactions (HostLine.expand (.config bpp imgType w h) ++ HostLine.expand (.event .start)) s = .next t ∧
      t.runState = .acqA ∧ t.n = lanes ∧ t.width = w.toNat ∧ t.height = h.toNat ∧
      t.selfPair = decide (h = 1#16) ∧ t.inRows = 0#16 ∧ t.outRows = 0#16
end

