-- ==== Sys2Proof/Laws/Memory.lean ====
section
/-! SUPPORT. The laws of a row buffer's memory: what is read after a write, and that the canonical form is kept. -/

namespace Sys2Proof.Machine

@[simp] theorem Memory.read_nil (a : Nat) : Memory.read [] a = none := rfl

@[simp] theorem Memory.wf_nil : Memory.wf [] := List.Pairwise.nil

/-- A byte reads back at its own address. -/
@[simp] theorem Memory.read_write_same (m : Memory) (a : Nat) (b : Byte) : (Memory.write m a b).read a = some b := by
  induction m with
  | nil => simp [Memory.write, Memory.read]
  | cons e m ih =>
    obtain ⟨k, v⟩ := e
    simp only [Memory.write]
    split
    · simp [Memory.read]
    · split
      · simp [Memory.read]
      · simp [Memory.read, ih, show k ≠ a by omega]

/-- A write leaves every other address alone. -/
theorem Memory.read_write_other (m : Memory) {a x : Nat} (b : Byte) (h : x ≠ a) :
    (Memory.write m a b).read x = m.read x := by
  induction m with
  | nil => simp [Memory.write, Memory.read, Ne.symm h]
  | cons e m ih =>
    obtain ⟨k, v⟩ := e
    simp only [Memory.write]
    split
    · simp [Memory.read, Ne.symm h]
    · split
      · next hk => subst hk; simp [Memory.read, Ne.symm h]
      · simp [Memory.read, ih]

/-- Both laws at once. -/
theorem Memory.read_write (m : Memory) (a x : Nat) (b : Byte) :
    (Memory.write m a b).read x = if x = a then some b else m.read x := by
  split
  · next h => subst h; exact Memory.read_write_same ..
  · next h => exact Memory.read_write_other m b h

/-- What a write leaves in the list: the new entry and old ones. -/
theorem Memory.mem_write {m : Memory} {a : Nat} {b : Byte} {e : Host.Cell} (h : e ∈ Memory.write m a b) :
    e = (a, b) ∨ e ∈ m := by
  induction m with
  | nil => simpa [Memory.write] using h
  | cons c m ih =>
    obtain ⟨k, v⟩ := c
    simp only [Memory.write] at h
    split at h
    · simpa using h
    · split at h
      · simp only [List.mem_cons] at h ⊢; tauto
      · simp only [List.mem_cons] at h ⊢
        rcases h with h | h
        · exact .inr (.inl h)
        · rcases ih h with h | h
          · exact .inl h
          · exact .inr (.inr h)

/-- A write keeps the canonical form. -/
theorem Memory.wf_write {m : Memory} (h : m.wf) (a : Nat) (b : Byte) : (Memory.write m a b).wf := by
  induction m with
  | nil => exact List.pairwise_singleton _ _
  | cons c m ih =>
    obtain ⟨k, v⟩ := c
    obtain ⟨hk, hm⟩ := List.pairwise_cons.1 h
    simp only [Memory.write]
    split
    · next hlt =>
      refine List.pairwise_cons.2 ⟨fun e he => ?_, h⟩
      rcases List.mem_cons.1 he with rfl | he
      · exact hlt
      · exact Nat.lt_trans hlt (hk e he)
    · split
      · next heq => subst heq; exact List.pairwise_cons.2 ⟨hk, hm⟩
      · next hge hne =>
        refine List.pairwise_cons.2 ⟨fun e he => ?_, ih hm⟩
        rcases Memory.mem_write he with rfl | he
        · show k < a; omega
        · exact hk e he

/-- Two slots with lanes below 4 have the same address only if they are the same slot. -/
theorem slotAddr_inj {j c j' c' : Nat} (hc : c < 4) (hc' : c' < 4) (h : slotAddr j c = slotAddr j' c') :
    j = j' ∧ c = c' := by
  unfold slotAddr at h
  omega

/-- Reading a written slot of the buffer answers its byte. -/
theorem readSlot_ok {px : Nat} {m : Memory} {j c : Nat} {b : Byte} (hj : j < px) (hc : c < 4)
    (h : m.read (slotAddr j c) = some b) : readSlot px m j c = .ok b := by
  simp [readSlot, hj, hc, h]

/-- Everything a slot read that answers can say. -/
theorem readSlot_eq_ok {px : Nat} {m : Memory} {j c : Nat} {b : Byte} :
    readSlot px m j c = .ok b ↔ j < px ∧ c < 4 ∧ m.read (slotAddr j c) = some b := by
  unfold readSlot
  split
  · next h => split <;> simp_all
  · next h => simp_all

/-- A write inside the buffer answers the written memory. -/
theorem writeSlot_ok {px : Nat} {m : Memory} {j c : Nat} (b : Byte) (hj : j < px) (hc : c < 4) :
    writeSlot px m j c b = .ok (m.write (slotAddr j c) b) := by
  simp [writeSlot, hj, hc]

/-- Everything a slot write that answers can say. -/
theorem writeSlot_eq_ok {px : Nat} {m m' : Memory} {j c : Nat} {b : Byte} :
    writeSlot px m j c b = .ok m' ↔ j < px ∧ c < 4 ∧ m' = m.write (slotAddr j c) b := by
  unfold writeSlot
  split
  · next h => simp [h, eq_comm]
  · next h => simp_all

end Sys2Proof.Machine
end

