-- ==== Sys2Proof/Laws/Rows.lean ====
section
/-! SUPPORT. What padding and reduction answer, said once: every byte of the memory they leave, and that they keep a
buffer's form. -/

namespace Sys2Proof.Machine

@[simp] theorem slotAddr_div {j c : Nat} (h : c < 4) : slotAddr j c / 4 = j := by unfold slotAddr; omega

@[simp] theorem slotAddr_mod {j c : Nat} (h : c < 4) : slotAddr j c % 4 = c := by unfold slotAddr; omega

/-- A write inside the buffer keeps its form. -/
theorem BufferOk.write {px : Nat} {m : Memory} (h : BufferOk px m) {j c : Nat} (hj : j < px) (hc : c < 4) (b : Byte) :
    BufferOk px (m.write (slotAddr j c) b) := by
  refine ⟨Memory.wf_write h.1 _ _, fun e he => ?_⟩
  rcases Memory.mem_write he with rfl | he
  · show slotAddr j c < 4 * px
    unfold slotAddr
    omega
  · exact h.2 e he

theorem BufferOk.nil (px : Nat) : BufferOk px [] := ⟨Memory.wf_nil, by simp⟩

/-- Padding copies the first n components of pixel w − 1 into pixel w and leaves every other byte alone. -/
theorem padLanes_ok {px w n : Nat} {m : Memory} (hw : 1 ≤ w) (hpx : w < px) (hn : n ≤ 4)
    (h : ∀ c < n, (m.read (slotAddr (w - 1) c)).isSome = true) :
    ∃ m', padLanes px w n m = .ok m' ∧
      (∀ x, m'.read x = if x / 4 = w ∧ x % 4 < n then m.read (x - 4) else m.read x) ∧
      (BufferOk px m → BufferOk px m') := by
  induction n with
  | zero => exact ⟨m, rfl, by simp, id⟩
  | succ n ih =>
    obtain ⟨m₁, hm₁, hread, hbuf⟩ := ih (by omega) (fun c hc => h c (by omega))
    obtain ⟨b, hb⟩ := Option.isSome_iff_exists.1 (h n (by omega))
    have hsrc : m₁.read (slotAddr (w - 1) n) = some b := by
      rw [hread, if_neg, hb]
      rw [slotAddr_div (by omega)]
      omega
    refine ⟨m₁.write (slotAddr w n) b, ?_, fun x => ?_, fun hm => (hbuf hm).write hpx (by omega) b⟩
    · simp only [padLanes, hm₁, bind, Except.bind, readSlot_ok (by omega : w - 1 < px) (by omega) hsrc]
      exact writeSlot_ok b hpx (by omega)
    · rw [Memory.read_write, hread]
      by_cases hx : x = slotAddr w n
      · subst hx
        rw [if_pos rfl, if_pos ⟨slotAddr_div (by omega), by rw [slotAddr_mod (by omega)]; omega⟩]
        rw [← hb]
        congr 1
        unfold slotAddr
        omega
      · rw [if_neg hx]
        have : (x / 4 = w ∧ x % 4 < n) ↔ (x / 4 = w ∧ x % 4 < n + 1) := by
          unfold slotAddr at hx
          omega
        simp only [this]

/-- Pad(ROW), all it can do (R101). -/
theorem padRow_ok {px w n : Nat} {m : Memory} (hw : 1 ≤ w) (hpx : w % 2 = 1 → w < px) (hn : n ≤ 4)
    (h : ∀ c < n, (m.read (slotAddr (w - 1) c)).isSome = true) :
    ∃ m', padRow px w n m = .ok m' ∧
      (∀ x, m'.read x = if w % 2 = 1 ∧ x / 4 = w ∧ x % 4 < n then m.read (x - 4) else m.read x) ∧
      (BufferOk px m → BufferOk px m') := by
  unfold padRow
  by_cases hodd : w % 2 = 1
  · obtain ⟨m', h1, h2, h3⟩ := padLanes_ok hw (hpx hodd) hn h
    exact ⟨m', by simp [hodd, h1], by simpa [hodd] using h2, h3⟩
  · exact ⟨m, by simp [hodd], by simp [hodd], id⟩

/-- The four reads of a block give its average (R108). -/
theorem reduceSlot_ok {px : Nat} {a b : Memory} {k c : Nat} (hk : 2 * k + 1 < px) (hc : c < 4) {p q r s : Byte}
    (hp : a.read (slotAddr (2 * k) c) = some p) (hq : a.read (slotAddr (2 * k + 1) c) = some q)
    (hr : b.read (slotAddr (2 * k) c) = some r) (hs : b.read (slotAddr (2 * k + 1) c) = some s) :
    reduceSlot px a b k c = .ok (avg4 p q r s) := by
  simp only [reduceSlot, bind, Except.bind, readSlot_ok (by omega : 2 * k < px) hc hp, readSlot_ok hk hc hq,
    readSlot_ok (by omega : 2 * k < px) hc hr, readSlot_ok hk hc hs]
  rfl

/-- One output pixel: its first n components are written, every other byte is left alone (R108). -/
theorem reducePixel_ok {px outPx k n : Nat} {a b out : Memory} {v : Nat → Byte} (hk : k < outPx) (hn : n ≤ 4)
    (h : ∀ c < n, reduceSlot px a b k c = .ok (v c)) :
    ∃ out', reducePixel px outPx a b k n out = .ok out' ∧
      (∀ x, out'.read x = if x / 4 = k ∧ x % 4 < n then some (v (x % 4)) else out.read x) ∧
      (BufferOk outPx out → BufferOk outPx out') := by
  induction n with
  | zero => exact ⟨out, rfl, by simp, id⟩
  | succ n ih =>
    obtain ⟨o, ho, hread, hbuf⟩ := ih (by omega) (fun c hc => h c (by omega))
    refine ⟨o.write (slotAddr k n) (v n), ?_, fun x => ?_, fun hm => (hbuf hm).write hk (by omega) _⟩
    · simp only [reducePixel, ho, bind, Except.bind, h n (by omega)]
      exact writeSlot_ok _ hk (by omega)
    · rw [Memory.read_write, hread]
      by_cases hx : x = slotAddr k n
      · subst hx
        rw [if_pos rfl, if_pos ⟨slotAddr_div (by omega), by rw [slotAddr_mod (by omega)]; omega⟩,
          slotAddr_mod (by omega)]
      · rw [if_neg hx]
        have : (x / 4 = k ∧ x % 4 < n) ↔ (x / 4 = k ∧ x % 4 < n + 1) := by
          unfold slotAddr at hx
          omega
        simp only [this]

/-- Reduce(A, B), all it can do (R108): lanes below n of the first `pixels` output pixels are written, every other byte of
ROW_OUT is left alone. -/
theorem reduceRows_ok {px outPx pixels n : Nat} {a b out : Memory} {v : Nat → Nat → Byte} (hk : pixels ≤ outPx)
    (hn : n ≤ 4) (h : ∀ k < pixels, ∀ c < n, reduceSlot px a b k c = .ok (v k c)) :
    ∃ out', reduceRows px outPx a b n pixels out = .ok out' ∧
      (∀ x, out'.read x = if x / 4 < pixels ∧ x % 4 < n then some (v (x / 4) (x % 4)) else out.read x) ∧
      (BufferOk outPx out → BufferOk outPx out') := by
  induction pixels with
  | zero => exact ⟨out, rfl, by simp, id⟩
  | succ k ih =>
    obtain ⟨o, ho, hread, hbuf⟩ := ih (by omega) (fun j hj => h j (by omega))
    obtain ⟨o', ho', hread', hbuf'⟩ :=
      reducePixel_ok (out := o) (by omega : k < outPx) hn (fun c hc => h k (by omega) c hc)
    refine ⟨o', ?_, fun x => ?_, fun hm => hbuf' (hbuf hm)⟩
    · simp only [reduceRows, ho, bind, Except.bind, ho']
    · rw [hread', hread]
      by_cases hx : x / 4 = k
      · simp [hx]
      · have : (x / 4 < k ∧ x % 4 < n) ↔ (x / 4 < k + 1 ∧ x % 4 < n) := by omega
        simp only [hx, false_and, if_false, this]

/-- The numbers under avg4: the exact sum, biased by 2 and divided by 4 (R109). -/
theorem avg4_toNat (p q r s : Byte) :
    (avg4 p q r s).toNat = (p.toNat + q.toNat + r.toNat + s.toNat + 2) / 4 := by
  have hp := p.isLt; have hq := q.isLt; have hr := r.isLt; have hs := s.isLt
  simp only [avg4, BitVec.toNat_setWidth, BitVec.toNat_ushiftRight, BitVec.toNat_add, Nat.shiftRight_eq_div_pow]
  simp
  omega

end Sys2Proof.Machine
end

