-- ==== Sys2Proof/Laws/State.lean ====
section
/-! SUPPORT. For each shared update of State: the value of every field after it, true by unfolding the update once. Later
proofs rewrite with these and never unfold a record update. -/

namespace Sys2Proof.Machine

/-- The fields error entry (R125) writes. -/
@[simp] theorem raiseError_writes (code : ErrCode) (s : State) :
    (raiseError code s).runState = .error ∧
    (raiseError code s).errCode = code := by
  exact ⟨rfl, rfl⟩

/-- The fields error entry (R125) leaves alone. -/
@[simp] theorem raiseError_keeps (code : ErrCode) (s : State) :
    (raiseError code s).cfgBpp = s.cfgBpp ∧
    (raiseError code s).cfgType = s.cfgType ∧
    (raiseError code s).cfgWidth = s.cfgWidth ∧
    (raiseError code s).cfgHeight = s.cfgHeight ∧
    (raiseError code s).n = s.n ∧
    (raiseError code s).selfPair = s.selfPair ∧
    (raiseError code s).inRows = s.inRows ∧
    (raiseError code s).outRows = s.outRows ∧
    (raiseError code s).inPos = s.inPos ∧
    (raiseError code s).outPos = s.outPos ∧
    (raiseError code s).rowA = s.rowA ∧
    (raiseError code s).rowB = s.rowB ∧
    (raiseError code s).rowOut = s.rowOut ∧
    (raiseError code s).maxWidth = s.maxWidth ∧
    (raiseError code s).readResp = s.readResp ∧
    (raiseError code s).waiting = s.waiting ∧
    (raiseError code s).outStream = s.outStream ∧
    (raiseError code s).pending = s.pending ∧
    (raiseError code s).freeCount = s.freeCount := by
  exact ⟨rfl, rfl, rfl, rfl, rfl, rfl, rfl, rfl, rfl, rfl, rfl, rfl, rfl, rfl, rfl, rfl, rfl, rfl, rfl⟩

/-- The fields START's clearing (R117) writes. -/
@[simp] theorem clearRun_writes (s : State) :
    (clearRun s).n = 0#3 ∧
    (clearRun s).selfPair = false ∧
    (clearRun s).inRows = 0#16 ∧
    (clearRun s).outRows = 0#16 ∧
    (clearRun s).inPos = 0#18 ∧
    (clearRun s).outPos = 0#17 := by
  exact ⟨rfl, rfl, rfl, rfl, rfl, rfl⟩

/-- The fields START's clearing (R117) leaves alone. -/
@[simp] theorem clearRun_keeps (s : State) :
    (clearRun s).cfgBpp = s.cfgBpp ∧
    (clearRun s).cfgType = s.cfgType ∧
    (clearRun s).cfgWidth = s.cfgWidth ∧
    (clearRun s).cfgHeight = s.cfgHeight ∧
    (clearRun s).runState = s.runState ∧
    (clearRun s).errCode = s.errCode ∧
    (clearRun s).rowA = s.rowA ∧
    (clearRun s).rowB = s.rowB ∧
    (clearRun s).rowOut = s.rowOut ∧
    (clearRun s).maxWidth = s.maxWidth ∧
    (clearRun s).readResp = s.readResp ∧
    (clearRun s).waiting = s.waiting ∧
    (clearRun s).outStream = s.outStream ∧
    (clearRun s).pending = s.pending ∧
    (clearRun s).freeCount = s.freeCount := by
  exact ⟨rfl, rfl, rfl, rfl, rfl, rfl, rfl, rfl, rfl, rfl, rfl, rfl, rfl, rfl, rfl⟩

/-- The fields ABORT (R84) writes. -/
@[simp] theorem abandonFrame_writes (s : State) :
    (abandonFrame s).n = 0#3 ∧
    (abandonFrame s).selfPair = false ∧
    (abandonFrame s).inRows = 0#16 ∧
    (abandonFrame s).outRows = 0#16 ∧
    (abandonFrame s).inPos = 0#18 ∧
    (abandonFrame s).outPos = 0#17 ∧
    (abandonFrame s).runState = .idle ∧
    (abandonFrame s).errCode = .none ∧
    (abandonFrame s).rowA = [] ∧
    (abandonFrame s).rowB = [] ∧
    (abandonFrame s).rowOut = [] := by
  exact ⟨rfl, rfl, rfl, rfl, rfl, rfl, rfl, rfl, rfl, rfl, rfl⟩

/-- The fields ABORT (R84) leaves alone. -/
@[simp] theorem abandonFrame_keeps (s : State) :
    (abandonFrame s).cfgBpp = s.cfgBpp ∧
    (abandonFrame s).cfgType = s.cfgType ∧
    (abandonFrame s).cfgWidth = s.cfgWidth ∧
    (abandonFrame s).cfgHeight = s.cfgHeight ∧
    (abandonFrame s).maxWidth = s.maxWidth ∧
    (abandonFrame s).readResp = s.readResp ∧
    (abandonFrame s).waiting = s.waiting ∧
    (abandonFrame s).outStream = s.outStream ∧
    (abandonFrame s).pending = s.pending ∧
    (abandonFrame s).freeCount = s.freeCount := by
  exact ⟨rfl, rfl, rfl, rfl, rfl, rfl, rfl, rfl, rfl, rfl⟩

/-- The fields Reset (R137) writes. -/
@[simp] theorem resetBlock_writes (s : State) :
    (resetBlock s).cfgBpp = 0#8 ∧
    (resetBlock s).cfgType = 0#8 ∧
    (resetBlock s).cfgWidth = 0#16 ∧
    (resetBlock s).cfgHeight = 0#16 ∧
    (resetBlock s).runState = .idle ∧
    (resetBlock s).errCode = .none ∧
    (resetBlock s).n = 0#3 ∧
    (resetBlock s).selfPair = false ∧
    (resetBlock s).inRows = 0#16 ∧
    (resetBlock s).outRows = 0#16 ∧
    (resetBlock s).inPos = 0#18 ∧
    (resetBlock s).outPos = 0#17 ∧
    (resetBlock s).rowA = [] ∧
    (resetBlock s).rowB = [] ∧
    (resetBlock s).rowOut = [] ∧
    (resetBlock s).readResp = none ∧
    (resetBlock s).waiting = none := by
  exact ⟨rfl, rfl, rfl, rfl, rfl, rfl, rfl, rfl, rfl, rfl, rfl, rfl, rfl, rfl, rfl, rfl, rfl⟩

/-- The fields Reset (R137) leaves alone. -/
@[simp] theorem resetBlock_keeps (s : State) :
    (resetBlock s).maxWidth = s.maxWidth ∧
    (resetBlock s).outStream = s.outStream ∧
    (resetBlock s).pending = s.pending ∧
    (resetBlock s).freeCount = s.freeCount := by
  exact ⟨rfl, rfl, rfl, rfl⟩

/-- The fields entry of ACQ_A (R25) writes. -/
@[simp] theorem enterAcqA_writes (s : State) :
    (enterAcqA s).runState = .acqA ∧
    (enterAcqA s).inPos = 0#18 ∧
    (enterAcqA s).selfPair = s.onLastRow := by
  exact ⟨rfl, rfl, rfl⟩

/-- The fields entry of ACQ_A (R25) leaves alone. -/
@[simp] theorem enterAcqA_keeps (s : State) :
    (enterAcqA s).cfgBpp = s.cfgBpp ∧
    (enterAcqA s).cfgType = s.cfgType ∧
    (enterAcqA s).cfgWidth = s.cfgWidth ∧
    (enterAcqA s).cfgHeight = s.cfgHeight ∧
    (enterAcqA s).errCode = s.errCode ∧
    (enterAcqA s).n = s.n ∧
    (enterAcqA s).inRows = s.inRows ∧
    (enterAcqA s).outRows = s.outRows ∧
    (enterAcqA s).outPos = s.outPos ∧
    (enterAcqA s).rowA = s.rowA ∧
    (enterAcqA s).rowB = s.rowB ∧
    (enterAcqA s).rowOut = s.rowOut ∧
    (enterAcqA s).maxWidth = s.maxWidth ∧
    (enterAcqA s).readResp = s.readResp ∧
    (enterAcqA s).waiting = s.waiting ∧
    (enterAcqA s).outStream = s.outStream ∧
    (enterAcqA s).pending = s.pending ∧
    (enterAcqA s).freeCount = s.freeCount := by
  exact ⟨rfl, rfl, rfl, rfl, rfl, rfl, rfl, rfl, rfl, rfl, rfl, rfl, rfl, rfl, rfl, rfl, rfl, rfl⟩

/-- The fields entry of ACQ_B (R25) writes. -/
@[simp] theorem enterAcqB_writes (s : State) :
    (enterAcqB s).runState = .acqB ∧
    (enterAcqB s).inPos = 0#18 := by
  exact ⟨rfl, rfl⟩

/-- The fields entry of ACQ_B (R25) leaves alone. -/
@[simp] theorem enterAcqB_keeps (s : State) :
    (enterAcqB s).cfgBpp = s.cfgBpp ∧
    (enterAcqB s).cfgType = s.cfgType ∧
    (enterAcqB s).cfgWidth = s.cfgWidth ∧
    (enterAcqB s).cfgHeight = s.cfgHeight ∧
    (enterAcqB s).errCode = s.errCode ∧
    (enterAcqB s).n = s.n ∧
    (enterAcqB s).selfPair = s.selfPair ∧
    (enterAcqB s).inRows = s.inRows ∧
    (enterAcqB s).outRows = s.outRows ∧
    (enterAcqB s).outPos = s.outPos ∧
    (enterAcqB s).rowA = s.rowA ∧
    (enterAcqB s).rowB = s.rowB ∧
    (enterAcqB s).rowOut = s.rowOut ∧
    (enterAcqB s).maxWidth = s.maxWidth ∧
    (enterAcqB s).readResp = s.readResp ∧
    (enterAcqB s).waiting = s.waiting ∧
    (enterAcqB s).outStream = s.outStream ∧
    (enterAcqB s).pending = s.pending ∧
    (enterAcqB s).freeCount = s.freeCount := by
  exact ⟨rfl, rfl, rfl, rfl, rfl, rfl, rfl, rfl, rfl, rfl, rfl, rfl, rfl, rfl, rfl, rfl, rfl, rfl, rfl⟩

/-- The fields entry of EMIT (R25) writes. -/
@[simp] theorem enterEmit_writes (s : State) :
    (enterEmit s).runState = .emit ∧
    (enterEmit s).outPos = 0#17 := by
  exact ⟨rfl, rfl⟩

/-- The fields entry of EMIT (R25) leaves alone. -/
@[simp] theorem enterEmit_keeps (s : State) :
    (enterEmit s).cfgBpp = s.cfgBpp ∧
    (enterEmit s).cfgType = s.cfgType ∧
    (enterEmit s).cfgWidth = s.cfgWidth ∧
    (enterEmit s).cfgHeight = s.cfgHeight ∧
    (enterEmit s).errCode = s.errCode ∧
    (enterEmit s).n = s.n ∧
    (enterEmit s).selfPair = s.selfPair ∧
    (enterEmit s).inRows = s.inRows ∧
    (enterEmit s).outRows = s.outRows ∧
    (enterEmit s).inPos = s.inPos ∧
    (enterEmit s).rowA = s.rowA ∧
    (enterEmit s).rowB = s.rowB ∧
    (enterEmit s).rowOut = s.rowOut ∧
    (enterEmit s).maxWidth = s.maxWidth ∧
    (enterEmit s).readResp = s.readResp ∧
    (enterEmit s).waiting = s.waiting ∧
    (enterEmit s).outStream = s.outStream ∧
    (enterEmit s).pending = s.pending ∧
    (enterEmit s).freeCount = s.freeCount := by
  exact ⟨rfl, rfl, rfl, rfl, rfl, rfl, rfl, rfl, rfl, rfl, rfl, rfl, rfl, rfl, rfl, rfl, rfl, rfl, rfl⟩

/-- The fields entry of DONE (R25) writes. -/
@[simp] theorem enterDone_writes (s : State) :
    (enterDone s).runState = .done := by
  exact rfl

/-- The fields entry of DONE (R25) leaves alone. -/
@[simp] theorem enterDone_keeps (s : State) :
    (enterDone s).cfgBpp = s.cfgBpp ∧
    (enterDone s).cfgType = s.cfgType ∧
    (enterDone s).cfgWidth = s.cfgWidth ∧
    (enterDone s).cfgHeight = s.cfgHeight ∧
    (enterDone s).errCode = s.errCode ∧
    (enterDone s).n = s.n ∧
    (enterDone s).selfPair = s.selfPair ∧
    (enterDone s).inRows = s.inRows ∧
    (enterDone s).outRows = s.outRows ∧
    (enterDone s).inPos = s.inPos ∧
    (enterDone s).outPos = s.outPos ∧
    (enterDone s).rowA = s.rowA ∧
    (enterDone s).rowB = s.rowB ∧
    (enterDone s).rowOut = s.rowOut ∧
    (enterDone s).maxWidth = s.maxWidth ∧
    (enterDone s).readResp = s.readResp ∧
    (enterDone s).waiting = s.waiting ∧
    (enterDone s).outStream = s.outStream ∧
    (enterDone s).pending = s.pending ∧
    (enterDone s).freeCount = s.freeCount := by
  exact ⟨rfl, rfl, rfl, rfl, rfl, rfl, rfl, rfl, rfl, rfl, rfl, rfl, rfl, rfl, rfl, rfl, rfl, rfl, rfl, rfl⟩

/-- The fields a register read (R49, R60) writes. -/
@[simp] theorem respond_writes (v : Word) (s : State) :
    (respond v s).readResp = some v := by
  exact rfl

/-- The fields a register read (R49, R60) leaves alone. -/
@[simp] theorem respond_keeps (v : Word) (s : State) :
    (respond v s).cfgBpp = s.cfgBpp ∧
    (respond v s).cfgType = s.cfgType ∧
    (respond v s).cfgWidth = s.cfgWidth ∧
    (respond v s).cfgHeight = s.cfgHeight ∧
    (respond v s).runState = s.runState ∧
    (respond v s).errCode = s.errCode ∧
    (respond v s).n = s.n ∧
    (respond v s).selfPair = s.selfPair ∧
    (respond v s).inRows = s.inRows ∧
    (respond v s).outRows = s.outRows ∧
    (respond v s).inPos = s.inPos ∧
    (respond v s).outPos = s.outPos ∧
    (respond v s).rowA = s.rowA ∧
    (respond v s).rowB = s.rowB ∧
    (respond v s).rowOut = s.rowOut ∧
    (respond v s).maxWidth = s.maxWidth ∧
    (respond v s).waiting = s.waiting ∧
    (respond v s).outStream = s.outStream ∧
    (respond v s).pending = s.pending ∧
    (respond v s).freeCount = s.freeCount := by
  exact ⟨rfl, rfl, rfl, rfl, rfl, rfl, rfl, rfl, rfl, rfl, rfl, rfl, rfl, rfl, rfl, rfl, rfl, rfl, rfl, rfl⟩

end Sys2Proof.Machine
end

