-- ==== Sys2Proof/Laws/Beats.lean ====
section
/-! SUPPORT. What completing a row, reducing a pair and each stream beat answer, from the conditions R45 and R46 name for the
run states. -/

namespace Sys2Proof.Machine

section Format

variable {s : State}

/-- A dispatched format has 1 to 4 components of 8 bits each (R116). -/
theorem FormatOk.lanes_bounds (h : FormatOk s) : 1 ≤ s.lanes ∧ s.lanes ≤ 4 := by
  obtain ⟨hreq, hn, -⟩ := h
  unfold State.lanes
  rw [hn]
  unfold requiredType at hreq
  split at hreq
  · next hb => rcases hb with hb | hb <;> rw [hb] <;> decide
  · split at hreq
    · next hb => rcases hb with hb | hb <;> rw [hb] <;> decide
    · simp at hreq

theorem FormatOk.width_pos (h : FormatOk s) : 1 ≤ s.width := by
  have h3 := h.2.2.1
  unfold State.width
  rcases Nat.eq_zero_or_pos s.cfgWidth.toNat with h0 | h0
  · exact absurd (BitVec.eq_of_toNat_eq (by simpa using h0)) h3
  · exact h0

theorem FormatOk.height_pos (h : FormatOk s) : 1 ≤ s.height := by
  have h4 := h.2.2.2.1
  unfold State.height
  rcases Nat.eq_zero_or_pos s.cfgHeight.toNat with h0 | h0
  · exact absurd (BitVec.eq_of_toNat_eq (by simpa using h0)) h4
  · exact h0

theorem FormatOk.width_le (h : FormatOk s) : s.width ≤ s.maxWidth.toNat := by
  have h5 := h.2.2.2.2
  simpa [State.width, BitVec.le_def] using h5

theorem State.width_lt (s : State) : s.width < 65536 := s.cfgWidth.isLt

theorem State.height_lt (s : State) : s.height < 65536 := s.cfgHeight.isLt

/-- H = 2·PAIRS + ODD_H (R17). -/
theorem State.height_eq_pairs (s : State) : s.height = 2 * s.pairs + s.oddHeight := by
  unfold State.pairs State.oddHeight
  omega

theorem State.oddHeight_le (s : State) : s.oddHeight ≤ 1 := by
  unfold State.oddHeight
  omega

/-- One output row for each pair, and one more for a self-paired final row (R105). -/
theorem State.heightOut_eq_pairs (s : State) : s.heightOut = s.pairs + s.oddHeight := by
  unfold State.heightOut State.pairs State.oddHeight
  omega

/-- A stored row fits its buffer, and an output row fits ROW_OUT (R31). -/
theorem FormatOk.fits (h : FormatOk s) :
    s.width ≤ s.rowPixels ∧ s.rowLen ≤ s.rowPixels ∧ s.widthOut ≤ s.outPixels := by
  have := h.width_le
  unfold State.rowLen State.widthOut State.outPixels State.rowPixels
  omega

end Format

/-- The last byte of a row makes the row whole. -/
theorem pixelsWritten_of_bytes {m : Memory} {w n : Nat} (h : BytesWritten m n (w * n)) :
    PixelsWritten m w n := by
  intro j hj c hc
  have hlt : j * n + c < w * n := by
    have : (j + 1) * n ≤ w * n := Nat.mul_le_mul_right n hj
    rw [Nat.add_mul] at this
    omega
  have := h (j * n + c) hlt
  have hdiv : (j * n + c) / n = j := by
    rw [Nat.mul_comm, Nat.mul_add_div (by omega), Nat.div_eq_of_lt hc, Nat.add_zero]
  have hmod : (j * n + c) % n = c := by
    rw [Nat.mul_comm, Nat.mul_add_mod, Nat.mod_eq_of_lt hc]
  rwa [pixelOf, laneOf, hdiv, hmod] at this

/-- Where the next byte goes. -/
theorem slot_bounds {pos w n : Nat} (hpos : pos < w * n) (hn : 1 ≤ n) :
    pixelOf pos n < w ∧ laneOf pos n < n :=
  ⟨(Nat.div_lt_iff_lt_mul hn).2 hpos, Nat.mod_lt _ hn⟩

/-- Different bytes of a row have different slots. -/
theorem slot_ne {t pos n : Nat} (hn : 1 ≤ n) (hn4 : n ≤ 4) (h : t ≠ pos) :
    slotAddr (pixelOf t n) (laneOf t n) ≠ slotAddr (pixelOf pos n) (laneOf pos n) := by
  intro heq
  have h1 : laneOf t n < n := Nat.mod_lt _ hn
  have h2 : laneOf pos n < n := Nat.mod_lt _ hn
  obtain ⟨ha, hb⟩ := slotAddr_inj (by omega) (by omega) heq
  unfold pixelOf at ha
  unfold laneOf at hb
  have e1 := Nat.div_add_mod t n
  have e2 := Nat.div_add_mod pos n
  rw [ha, hb, e2] at e1
  exact h e1.symm

/-- Storing byte `pos` after the bytes before it. -/
theorem bytesWritten_store {m : Memory} {n pos : Nat} (hn : 1 ≤ n) (hn4 : n ≤ 4) (h : BytesWritten m n pos) (d : Byte) :
    BytesWritten (m.write (slotAddr (pixelOf pos n) (laneOf pos n)) d) n (pos + 1) := by
  intro t ht
  by_cases hp : t = pos
  · subst hp
    simp
  · rw [Memory.read_write_other _ _ (slot_ne hn hn4 hp)]
    exact h t (by omega)

/-- RowComplete's padding of a whole row (R101): all it can do. -/
theorem padRow_done {s : State} (hf : FormatOk s) {m : Memory} (hm : PixelsWritten m s.width s.lanes) :
    ∃ m', padRow s.rowPixels s.width s.lanes m = .ok m' ∧ RowDone s m' ∧
      (∀ x, m'.read x =
        if s.width % 2 = 1 ∧ x / 4 = s.width ∧ x % 4 < s.lanes then m.read (x - 4) else m.read x) ∧
      (BufferOk s.rowPixels m → BufferOk s.rowPixels m') := by
  have hw := hf.width_pos
  have hl := hf.lanes_bounds
  have hfit := hf.fits
  have hodd : s.width % 2 = 1 → s.width < s.rowPixels := by
    have := hf.width_le
    unfold State.rowPixels
    omega
  obtain ⟨m', h1, hread, hbuf⟩ :=
    padRow_ok (px := s.rowPixels) hw hodd hl.2 (fun c hc => hm (s.width - 1) (by omega) c hc)
  have hkeep : ∀ j < s.width, ∀ c < s.lanes, m'.read (slotAddr j c) = m.read (slotAddr j c) := by
    intro j hj c hc
    rw [hread, if_neg]
    rw [slotAddr_div (by omega)]
    omega
  have hcopy : s.width % 2 = 1 → ∀ c < s.lanes,
      m'.read (slotAddr s.width c) = m.read (slotAddr (s.width - 1) c) := by
    intro ho c hc
    rw [hread, if_pos ⟨ho, slotAddr_div (by omega), by rw [slotAddr_mod (by omega)]; omega⟩]
    congr 1
    unfold slotAddr
    omega
  refine ⟨m', h1, ⟨fun j hj c hc => ?_, fun ho c hc => ?_⟩, hread, hbuf⟩
  · by_cases hjw : j < s.width
    · rw [hkeep j hjw c hc]
      exact hm j hjw c hc
    · have ho : s.width % 2 = 1 ∧ j = s.width := by
        unfold State.rowLen State.widthOut at hj
        omega
      rw [ho.2, hcopy ho.1 c hc]
      exact hm _ (by omega) c hc
  · rw [hcopy ho c hc, hkeep _ (by omega) c hc]

/-- The reduction of two whole rows (R108): all it can do. -/
theorem reduceInto_ok {s : State} (hf : FormatOk s) {a b : Memory} (ha : PixelsWritten a s.rowLen s.lanes)
    (hb : PixelsWritten b s.rowLen s.lanes) :
    ∃ out', reduceInto s a b = .ok out' ∧
      (∀ k < s.widthOut, ∀ c < s.lanes, (out'.read (slotAddr k c)).isSome = true ∧
        out'.read (slotAddr k c) = (reduceSlot s.rowPixels a b k c).toOption) ∧
      (∀ x, ¬ (x / 4 < s.widthOut ∧ x % 4 < s.lanes) → out'.read x = s.rowOut.read x) ∧
      (BufferOk s.outPixels s.rowOut → BufferOk s.outPixels out') := by
  have hl := hf.lanes_bounds
  have hfit := hf.fits
  have hslot : ∀ k < s.widthOut, ∀ c < s.lanes,
      reduceSlot s.rowPixels a b k c = .ok ((reduceSlot s.rowPixels a b k c).toOption.getD 0#8) := by
    intro k hk c hc
    have hL : 2 * k + 1 < s.rowLen := by unfold State.rowLen; omega
    obtain ⟨p, hp⟩ := Option.isSome_iff_exists.1 (ha (2 * k) (by omega) c hc)
    obtain ⟨q, hq⟩ := Option.isSome_iff_exists.1 (ha (2 * k + 1) hL c hc)
    obtain ⟨r, hr⟩ := Option.isSome_iff_exists.1 (hb (2 * k) (by omega) c hc)
    obtain ⟨t, ht⟩ := Option.isSome_iff_exists.1 (hb (2 * k + 1) hL c hc)
    rw [reduceSlot_ok (by omega) (by omega) hp hq hr ht]
    rfl
  obtain ⟨out', h1, hread, hbuf⟩ := reduceRows_ok (out := s.rowOut) hfit.2.2 hl.2 hslot
  refine ⟨out', h1, fun k hk c hc => ?_, fun x hx => ?_, hbuf⟩
  · have hv : out'.read (slotAddr k c) = some ((reduceSlot s.rowPixels a b k c).toOption.getD 0#8) := by
      rw [hread, if_pos ⟨by rw [slotAddr_div (by omega)]; exact hk, by rw [slotAddr_mod (by omega)]; exact hc⟩,
        slotAddr_div (by omega), slotAddr_mod (by omega)]
    refine ⟨by rw [hv]; rfl, ?_⟩
    rw [hv]
    conv_rhs => rw [hslot k hk c hc]
    rfl
  · rw [hread, if_neg hx]

section Beats

variable {s : State}

/-- The slot the next input byte of ROW_A goes to (R30, R100). -/
def nextSlot (s : State) : Nat := slotAddr (pixelOf s.inPos.toNat s.lanes) (laneOf s.inPos.toNat s.lanes)

theorem FormatOk.store (hf : FormatOk s) (hpos : s.inPos.toNat < s.rowBytes) (m : Memory) (d : Byte) :
    writeSlot s.rowPixels m (pixelOf s.inPos.toNat s.lanes) (laneOf s.inPos.toNat s.lanes) d =
      .ok (m.write (nextSlot s) d) := by
  have hb := slot_bounds hpos hf.lanes_bounds.1
  have := hf.fits
  have := hf.lanes_bounds
  exact writeSlot_ok d (by omega) (by omega)

/-- A byte of ROW_A that is not the row's last (R100). -/
theorem storeInA_mid (hf : FormatOk s) (hpos : s.inPos.toNat < s.rowBytes) (he : s.atRowEnd = false) (d : Byte) :
    storeInA d s = .ok { s with rowA := s.rowA.write (nextSlot s) d, inPos := s.inPos + 1#18 } := by
  simp only [storeInA, hf.store hpos, bind, Except.bind, he]
  rfl

/-- A byte of ROW_B that is not the row's last (R100). -/
theorem storeInB_mid (hf : FormatOk s) (hpos : s.inPos.toNat < s.rowBytes) (he : s.atRowEnd = false) (d : Byte) :
    storeInB d s = .ok { s with rowB := s.rowB.write (nextSlot s) d, inPos := s.inPos + 1#18 } := by
  simp only [storeInB, hf.store hpos, bind, Except.bind, he]
  rfl

/-- The row a completing byte leaves before padding. -/
theorem BytesWritten.complete (hf : FormatOk s) (he : s.atRowEnd = true) {m : Memory}
    (hm : BytesWritten m s.lanes s.inPos.toNat) (d : Byte) :
    PixelsWritten (m.write (nextSlot s) d) s.width s.lanes := by
  have he' : s.inPos.toNat + 1 = s.rowBytes := by simpa [State.atRowEnd] using he
  have h := bytesWritten_store hf.lanes_bounds.1 hf.lanes_bounds.2 hm d
  rw [he'] at h
  exact pixelsWritten_of_bytes h

/-- RowComplete of the first row of a pair (R102). -/
theorem completeRowA_pair {a : Memory} (ha : padRow s.rowPixels s.width s.lanes s.rowA = .ok a)
    (hself : s.selfPair = false) :
    completeRowA s = .ok (enterAcqB { s with rowA := a, inRows := s.inRows + 1#16 }) := by
  simp only [completeRowA, ha, bind, Except.bind, hself]
  rfl

/-- RowComplete of a self-paired row (R102). -/
theorem completeRowA_self {a out : Memory} (ha : padRow s.rowPixels s.width s.lanes s.rowA = .ok a)
    (hself : s.selfPair = true) (hout : reduceInto s a a = .ok out) :
    completeRowA s = .ok (enterEmit { s with rowA := a, inRows := s.inRows + 1#16, rowOut := out }) := by
  have hout' : reduceInto { s with rowA := a, inRows := s.inRows + 1#16 } a a = .ok out := hout
  simp only [completeRowA, ha, bind, Except.bind, hself, if_true, hself ▸ hout']
  rfl

/-- RowComplete of the second row of a pair (R102). -/
theorem completeRowB_ok {b out : Memory} (hb : padRow s.rowPixels s.width s.lanes s.rowB = .ok b)
    (hout : reduceInto s s.rowA b = .ok out) :
    completeRowB s = .ok (enterEmit { s with rowB := b, inRows := s.inRows + 1#16, rowOut := out }) := by
  have hout' : reduceInto { s with rowB := b, inRows := s.inRows + 1#16 } s.rowA b = .ok out := hout
  simp only [completeRowB, hb, bind, Except.bind, hout']
  rfl

/-- The last byte of the first row of a pair (R102): ROW_A is padded and ACQ_B follows. -/
theorem storeInA_pair (hf : FormatOk s) (hpos : s.inPos.toNat < s.rowBytes) (he : s.atRowEnd = true)
    (hself : s.selfPair = false) (hm : BytesWritten s.rowA s.lanes s.inPos.toNat) (d : Byte) :
    ∃ a, padRow s.rowPixels s.width s.lanes (s.rowA.write (nextSlot s) d) = .ok a ∧
      storeInA d s = .ok (enterAcqB { s with rowA := a, inRows := s.inRows + 1#16 }) ∧ RowDone s a ∧
      (BufferOk s.rowPixels s.rowA → BufferOk s.rowPixels a) := by
  have hb := slot_bounds hpos hf.lanes_bounds.1
  have hl := hf.lanes_bounds
  have hfit := hf.fits
  obtain ⟨a, ha, hdone, -, hbuf⟩ := padRow_done hf (hm.complete hf he d)
  refine ⟨a, ha, ?_, hdone, fun h => hbuf (h.write (by omega) (by omega) d)⟩
  simp only [storeInA, hf.store hpos, bind, Except.bind, he, if_true]
  exact completeRowA_pair (s := { s with rowA := s.rowA.write (nextSlot s) d }) ha hself

/-- The last byte of a self-paired row (R102): ROW_A is padded, reduced with itself, and EMIT follows. -/
theorem storeInA_self (hf : FormatOk s) (hpos : s.inPos.toNat < s.rowBytes) (he : s.atRowEnd = true)
    (hself : s.selfPair = true) (hm : BytesWritten s.rowA s.lanes s.inPos.toNat) (d : Byte) :
    ∃ a out, padRow s.rowPixels s.width s.lanes (s.rowA.write (nextSlot s) d) = .ok a ∧
      storeInA d s = .ok (enterEmit { s with rowA := a, inRows := s.inRows + 1#16, rowOut := out }) ∧ RowDone s a ∧
      (∀ k < s.widthOut, ∀ c < s.lanes, (out.read (slotAddr k c)).isSome = true ∧
        out.read (slotAddr k c) = (reduceSlot s.rowPixels a a k c).toOption) ∧
      (∀ x, ¬ (x / 4 < s.widthOut ∧ x % 4 < s.lanes) → out.read x = s.rowOut.read x) ∧
      (BufferOk s.rowPixels s.rowA → BufferOk s.rowPixels a) ∧
      (BufferOk s.outPixels s.rowOut → BufferOk s.outPixels out) := by
  have hb := slot_bounds hpos hf.lanes_bounds.1
  have hl := hf.lanes_bounds
  have hfit := hf.fits
  obtain ⟨a, ha, hdone, -, hbuf⟩ := padRow_done hf (hm.complete hf he d)
  obtain ⟨out, hout, hred, hframe, hobuf⟩ := reduceInto_ok hf hdone.1 hdone.1
  refine ⟨a, out, ha, ?_, hdone, hred, hframe, fun h => hbuf (h.write (by omega) (by omega) d), hobuf⟩
  simp only [storeInA, hf.store hpos, bind, Except.bind, he, if_true]
  exact completeRowA_self (s := { s with rowA := s.rowA.write (nextSlot s) d }) ha hself hout

/-- The last byte of the second row of a pair (R102): ROW_B is padded, the pair is reduced, and EMIT follows. -/
theorem storeInB_end (hf : FormatOk s) (hpos : s.inPos.toNat < s.rowBytes) (he : s.atRowEnd = true)
    (hA : RowDone s s.rowA) (hm : BytesWritten s.rowB s.lanes s.inPos.toNat) (d : Byte) :
    ∃ b out, padRow s.rowPixels s.width s.lanes (s.rowB.write (nextSlot s) d) = .ok b ∧
      storeInB d s = .ok (enterEmit { s with rowB := b, inRows := s.inRows + 1#16, rowOut := out }) ∧ RowDone s b ∧
      (∀ k < s.widthOut, ∀ c < s.lanes, (out.read (slotAddr k c)).isSome = true ∧
        out.read (slotAddr k c) = (reduceSlot s.rowPixels s.rowA b k c).toOption) ∧
      (∀ x, ¬ (x / 4 < s.widthOut ∧ x % 4 < s.lanes) → out.read x = s.rowOut.read x) ∧
      (BufferOk s.rowPixels s.rowB → BufferOk s.rowPixels b) ∧
      (BufferOk s.outPixels s.rowOut → BufferOk s.outPixels out) := by
  have hb := slot_bounds hpos hf.lanes_bounds.1
  have hl := hf.lanes_bounds
  have hfit := hf.fits
  obtain ⟨b, hpad, hdone, -, hbuf⟩ := padRow_done hf (hm.complete hf he d)
  obtain ⟨out, hout, hred, hframe, hobuf⟩ := reduceInto_ok hf hA.1 hdone.1
  refine ⟨b, out, hpad, ?_, hdone, hred, hframe, fun h => hbuf (h.write (by omega) (by omega) d), hobuf⟩
  simp only [storeInB, hf.store hpos, bind, Except.bind, he, if_true]
  exact completeRowB_ok (s := { s with rowB := s.rowB.write (nextSlot s) d }) hpad hout

/-- An output byte inside its row (R114). -/
theorem advanceOut_mid (he : s.atOutRowEnd = false) : advanceOut s = { s with outPos := s.outPos + 1#17 } := by
  simp [advanceOut, he]

/-- The last byte of an output row that is not the last row (R114): ACQ_A follows. -/
theorem advanceOut_row (he : s.atOutRowEnd = true) (hl : (s.outRows + 1#16).toNat ≠ s.heightOut) :
    advanceOut s = enterAcqA { s with outRows := s.outRows + 1#16 } := by
  simp only [advanceOut, he, if_true]
  exact if_neg hl

/-- The last byte of the frame (R114): DONE follows. -/
theorem advanceOut_frame (he : s.atOutRowEnd = true) (hl : (s.outRows + 1#16).toNat = s.heightOut) :
    advanceOut s = enterDone { s with outRows := s.outRows + 1#16 } := by
  simp only [advanceOut, he, if_true]
  exact if_pos hl

/-- The byte an EMIT state presents is there (R46). -/
theorem EmitOk.presented (h : EmitOk s) :
    ∃ d, s.rowOut.read (slotAddr (pixelOf s.outPos.toNat s.lanes) (laneOf s.outPos.toNat s.lanes)) = some d ∧
      readSlot s.outPixels s.rowOut (pixelOf s.outPos.toNat s.lanes) (laneOf s.outPos.toNat s.lanes) = .ok d := by
  obtain ⟨hf, -, hpos, -, -, -, -, hred⟩ := h
  have hb := slot_bounds hpos hf.lanes_bounds.1
  have hl := hf.lanes_bounds
  have hfit := hf.fits
  obtain ⟨d, hd⟩ := Option.isSome_iff_exists.1 (hred _ hb.1 _ hb.2).1
  exact ⟨d, hd, readSlot_ok (by omega) (by omega) hd⟩

end Beats

end Sys2Proof.Machine
end

