-- ==== Sys2Proof/Laws/Encoding.lean ====
section
/-! SUPPORT. The bits of the encoder's words, and that the decoder reads each field back. -/

namespace Sys2Proof

theorem wordCZ_bit (op : BitVec 4) (i : Nat) :
    (wordCZ op).getLsbD i = if i < 28 then false else op.getLsbD (i - 28) := by
  unfold wordCZ
  erw [BitVec.getLsbD_append]
  simp

theorem wordCI_bit (op : BitVec 4) (imm : Half) (i : Nat) : (wordCI op imm).getLsbD i =
    if i < 16 then imm.getLsbD i else if i < 28 then false else op.getLsbD (i - 28) := by
  unfold wordCI
  erw [BitVec.getLsbD_append, BitVec.getLsbD_append]
  simp
  grind

theorem wordCF_eq_wordCI (imgType bpp : Byte) : wordCF imgType bpp = wordCI 1#4 (imgType ++ bpp) := by
  apply BitVec.eq_of_getLsbD_eq
  intro i _
  rw [wordCI_bit]
  unfold wordCF
  erw [BitVec.getLsbD_append, BitVec.getLsbD_append, BitVec.getLsbD_append, BitVec.getLsbD_append]
  simp
  grind

/-- The decoder and the check of well-formedness read the same opcode bits. -/
@[simp] theorem commandOp_eq (w : Word) : commandOp w = opField w := rfl

theorem opField_wordCZ (op : BitVec 4) : opField (wordCZ op) = op := by
  apply BitVec.eq_of_getLsbD_eq
  intro i hi
  simp [opField, wordCZ_bit, hi]

theorem opField_wordCI (op : BitVec 4) (imm : Half) : opField (wordCI op imm) = op := by
  apply BitVec.eq_of_getLsbD_eq
  intro i hi
  simp [opField, wordCI_bit, hi]
  omega

theorem wordCZ_low (op : BitVec 4) : (wordCZ op).extractLsb' 0 28 = 0#28 := by
  apply BitVec.eq_of_getLsbD_eq
  intro i hi
  simp [wordCZ_bit, hi]

theorem wordCI_mid (op : BitVec 4) (imm : Half) : (wordCI op imm).extractLsb' 16 12 = 0#12 := by
  apply BitVec.eq_of_getLsbD_eq
  intro i hi
  simp [wordCI_bit, show 16 + i < 28 by omega]

theorem wordCI_low (op : BitVec 4) (imm : Half) : (wordCI op imm).extractLsb' 0 16 = imm := by
  apply BitVec.eq_of_getLsbD_eq
  intro i hi
  simp [wordCI_bit, hi]

theorem wordCF_bpp (imgType bpp : Byte) : (wordCF imgType bpp).extractLsb' 0 8 = bpp := by
  rw [wordCF_eq_wordCI]
  apply BitVec.eq_of_getLsbD_eq
  intro i hi
  rw [BitVec.getLsbD_extractLsb', wordCI_bit]
  erw [BitVec.getLsbD_append]
  simp [hi, show i < 16 by omega]

theorem wordCF_imgType (imgType bpp : Byte) : (wordCF imgType bpp).extractLsb' 8 8 = imgType := by
  rw [wordCF_eq_wordCI]
  apply BitVec.eq_of_getLsbD_eq
  intro i hi
  rw [BitVec.getLsbD_extractLsb', wordCI_bit]
  erw [BitVec.getLsbD_append]
  simp [hi, show 8 + i < 16 by omega]

/-- A word with opcode `op` and zero low bits is the CZ word of `op`. -/
theorem wordCZ_of_fields {w : Word} {op : BitVec 4} (hop : opField w = op) (hlow : w.extractLsb' 0 28 = 0#28) :
    wordCZ op = w := by
  apply BitVec.eq_of_getLsbD_eq
  intro i hi
  rw [wordCZ_bit]
  have h1 := congrArg (fun v => v.getLsbD i) hlow
  have h2 := congrArg (fun v => v.getLsbD (i - 28)) hop
  simp [opField] at h1 h2
  grind

/-- A word with opcode `op` and zero bits 27:16 is the CI word of `op` and its low half. -/
theorem wordCI_of_fields {w : Word} {op : BitVec 4} (hop : opField w = op) (hmid : w.extractLsb' 16 12 = 0#12) :
    wordCI op (w.extractLsb' 0 16) = w := by
  apply BitVec.eq_of_getLsbD_eq
  intro i hi
  rw [wordCI_bit]
  have h1 := congrArg (fun v => v.getLsbD (i - 16)) hmid
  have h2 := congrArg (fun v => v.getLsbD (i - 28)) hop
  simp [opField] at h1 h2 ⊢
  grind

/-- The two bytes of a word's low half. -/
theorem halves_append (w : Word) : w.extractLsb' 8 8 ++ w.extractLsb' 0 8 = w.extractLsb' 0 16 := by
  apply BitVec.eq_of_getLsbD_eq
  intro i hi
  erw [BitVec.getLsbD_append]
  simp
  grind

/-- The opcode's high bit is the word's. -/
theorem opField_lt_eight_iff (w : Word) : (opField w).toNat < 8 ↔ w.msb = false := by
  have : (opField w).toNat = w.toNat / 2 ^ 28 := by
    simp [opField, BitVec.extractLsb'_toNat, Nat.shiftRight_eq_div_pow]
    omega
  rw [this, BitVec.msb_eq_decide]
  simp
  omega

theorem unpackBeat_packBeat (b : Beat) : unpackBeat (packBeat b) = b := by
  obtain ⟨d, l⟩ := b
  unfold unpackBeat packBeat
  congr 1
  · apply BitVec.eq_of_getLsbD_eq
    intro i hi
    erw [BitVec.getLsbD_extractLsb', BitVec.getLsbD_append]
    simp [hi]
  · erw [BitVec.getLsbD_append]
    simp

theorem packBeat_unpackBeat (v : BitVec 9) : packBeat (unpackBeat v) = v := by
  unfold unpackBeat packBeat
  apply BitVec.eq_of_getLsbD_eq
  intro i hi
  erw [BitVec.getLsbD_append]
  by_cases h : i < 8
  · simp [h]
  · have : i = 8 := by omega
    subst this
    simp

@[simp] theorem aligned_regOffset (r : HostReg) : aligned (regOffset r) = true := by
  cases r <;> decide

@[simp] theorem regAt_regOffset (r : HostReg) : regAt (regOffset r) = r := by
  cases r <;> decide

/-- An aligned offset is the offset of the register it selects. -/
theorem regOffset_regAt (addr : Offset) (h : aligned addr = true) : regOffset (regAt addr) = addr := by
  revert addr
  decide

theorem decode_read (r : HostReg) : decode (.regRead (regOffset r)) = .ok (readInstr r) := by
  simp [decode]

theorem decode_command (w : Word) : decode (.regWrite (regOffset .cmd) w) = .ok (decodeCommand w) := by
  simp [decode, writeInstr]

theorem decode_otherWrite {r : HostReg} (h : r ≠ .cmd) (w : Word) :
    decode (.regWrite (regOffset r) w) = .ok (.wrOther r w) := by
  simp [decode, writeInstr, h]

/-- What the words of R72 decode to: the one or the other ILLEGAL row. -/
theorem decodeCommand_illegal {w : Word} (hm : w.msb = false) (hc : isCommandWord w = false) :
    decodeCommand w = .illegal w := by
  have hlt := (opField_lt_eight_iff w).2 hm
  unfold isCommandWord at hc
  simp only [decodeCommand, commandOp_eq]
  generalize (opField w).toNat = k at hlt hc
  interval_cases k <;> simp_all

theorem decodeCommand_illegalHigh {w : Word} (hm : w.msb = true) : decodeCommand w = .illegalHigh w := by
  have hge : ¬ (opField w).toNat < 8 := by simp [opField_lt_eight_iff, hm]
  have hlt := (opField w).isLt
  simp only [decodeCommand, commandOp_eq]
  generalize (opField w).toNat = k at hlt hge
  interval_cases k <;> simp_all

end Sys2Proof
end

