-- ==== Sys2Proof/Laws/PerInstr.lean ====
section
/-! SUPPORT. The statement made of each instruction as syntax: decoding its encoding gives it back. One lemma per
constructor of `Instr`. -/

namespace Sys2Proof.Laws.RoundTrip

/-- A well-formed instruction is what its own encoding decodes to. -/
def Statement (i : Instr) : Prop := i.wellFormed = true → decode (encode i) = .ok i

theorem nop : Statement .nop := by
  intro _
  simp [encode, decode_command, decodeCommand, opField_wordCZ, wordCZ_low]

theorem setFormat (bpp imgType : Byte) : Statement (.setFormat bpp imgType) := by
  intro _
  have hop : opField (wordCF imgType bpp) = 1#4 := by rw [wordCF_eq_wordCI, opField_wordCI]
  have hmid : (wordCF imgType bpp).extractLsb' 16 12 = 0#12 := by rw [wordCF_eq_wordCI, wordCI_mid]
  simp only [encode, decode_command, decodeCommand, commandOp_eq, hop]
  simp [hmid, wordCF_bpp, wordCF_imgType]

theorem setWidth (w : Half) : Statement (.setWidth w) := by
  intro _
  simp only [encode, decode_command, decodeCommand, commandOp_eq, opField_wordCI]
  simp [wordCI_mid, wordCI_low]

theorem setHeight (h : Half) : Statement (.setHeight h) := by
  intro _
  simp only [encode, decode_command, decodeCommand, commandOp_eq, opField_wordCI]
  simp [wordCI_mid, wordCI_low]

theorem start : Statement .start := by
  intro _
  simp [encode, decode_command, decodeCommand, opField_wordCZ, wordCZ_low]

theorem abort : Statement .abort := by
  intro _
  simp [encode, decode_command, decodeCommand, opField_wordCZ, wordCZ_low]

theorem illegal (w : Word) : Statement (.illegal w) := by
  intro hw
  simp [Instr.wellFormed] at hw
  rw [encode, decode_command, decodeCommand_illegal hw.1 hw.2]

theorem illegalHigh (w : Word) : Statement (.illegalHigh w) := by
  intro hw
  rw [encode, decode_command, decodeCommand_illegalHigh hw]

theorem rdCmd : Statement .rdCmd := fun _ => decode_read .cmd

theorem rdStatus : Statement .rdStatus := fun _ => decode_read .status

theorem rdFormat : Statement .rdFormat := fun _ => decode_read .format

theorem rdDim : Statement .rdDim := fun _ => decode_read .dim

theorem rdOutDim : Statement .rdOutDim := fun _ => decode_read .outDim

theorem rdProgress : Statement .rdProgress := fun _ => decode_read .progress

theorem rdParam : Statement .rdParam := fun _ => decode_read .param

theorem rdRsvd : Statement .rdRsvd := fun _ => decode_read .rsvd

theorem wrOther (r : HostReg) (data : Word) : Statement (.wrOther r data) := by
  intro hw
  simp [Instr.wellFormed] at hw
  exact decode_otherWrite hw data

theorem inBeat (data : Byte) (last : Bool) : Statement (.inBeat data last) := by
  intro _
  simp [encode, decode, unpackBeat_packBeat]

theorem outBeat : Statement .outBeat := fun _ => rfl

theorem reset : Statement .reset := fun _ => rfl

end Sys2Proof.Laws.RoundTrip
end

