-- ==== Sys2Proof/Laws/Cycle.lean ====
section
/-! SUPPORT. What one rising edge can do: the fields it latches, how its events chain, and the cases of a step. -/

namespace Sys2Proof.Machine

/-- The fields an edge latches. -/
@[simp] theorem latchPorts_writes (p : Pins) (s : State) :
    (latchPorts p s).readResp = none ∧
    (latchPorts p s).waiting = (if p.rst || s.inReady then none else offered p) ∧
    (latchPorts p s).freeCount = s.freeCount + 1 := by
  exact ⟨rfl, rfl, rfl⟩

/-- The fields an edge's latching leaves alone. -/
@[simp] theorem latchPorts_keeps (p : Pins) (s : State) :
    (latchPorts p s).cfgBpp = s.cfgBpp ∧
    (latchPorts p s).cfgType = s.cfgType ∧
    (latchPorts p s).cfgWidth = s.cfgWidth ∧
    (latchPorts p s).cfgHeight = s.cfgHeight ∧
    (latchPorts p s).runState = s.runState ∧
    (latchPorts p s).errCode = s.errCode ∧
    (latchPorts p s).n = s.n ∧
    (latchPorts p s).selfPair = s.selfPair ∧
    (latchPorts p s).inRows = s.inRows ∧
    (latchPorts p s).outRows = s.outRows ∧
    (latchPorts p s).inPos = s.inPos ∧
    (latchPorts p s).outPos = s.outPos ∧
    (latchPorts p s).rowA = s.rowA ∧
    (latchPorts p s).rowB = s.rowB ∧
    (latchPorts p s).rowOut = s.rowOut ∧
    (latchPorts p s).maxWidth = s.maxWidth ∧
    (latchPorts p s).outStream = s.outStream ∧
    (latchPorts p s).pending = s.pending := by
  exact ⟨rfl, rfl, rfl, rfl, rfl, rfl, rfl, rfl, rfl, rfl, rfl, rfl, rfl, rfl, rfl, rfl, rfl, rfl⟩

/-- A decoded event runs as its meaning. -/
theorem runTransaction_of_decode {t : Transaction} {i : Instr} (h : decode t = .ok i) (s : State) :
    runTransaction t s = exec i s := by
  simp [runTransaction, h]

/-- An event of the host runs as the meaning of what it decodes to, or is refused as misaligned. -/
theorem runTransaction_cases (t : Transaction) (s : State) :
    (∃ i, decode t = .ok i ∧ runTransaction t s = exec i s) ∨
    (decode t = .error .misalignedOffset ∧ runTransaction t s = .refused .misalignedAccess) := by
  unfold runTransaction
  cases h : decode t with
  | ok i => exact .inl ⟨i, rfl, rfl⟩
  | error e => cases e; exact .inr ⟨rfl, rfl⟩

@[simp] theorem runTransactions_nil (s : State) : runTransactions [] s = .next s := rfl

/-- One event alone. -/
@[simp] theorem runTransactions_single (t : Transaction) (s : State) : runTransactions [t] s = runTransaction t s := by
  simp only [runTransactions]
  cases runTransaction t s <;> rfl

/-- Events chain through the states between them. -/
theorem runTransactions_cons_next {t : Transaction} {rest : List Transaction} {s s' : State} :
    runTransactions (t :: rest) s = .next s' ↔
      ∃ m, runTransaction t s = .next m ∧ runTransactions rest m = .next s' := by
  simp only [runTransactions]
  cases runTransaction t s <;> simp

/-- What every meaning keeps, a list of events keeps. -/
theorem runTransactions_keeps {P : State → Prop} (h : ∀ i s s', P s → exec i s = .next s' → P s') :
    ∀ (ts : List Transaction) (s s' : State), P s → runTransactions ts s = .next s' → P s'
  | [], s, s', hs, hr => by
    simp only [runTransactions_nil, Host.Outcome.next.injEq] at hr
    exact hr ▸ hs
  | t :: rest, s, s', hs, hr => by
    obtain ⟨m, h1, h2⟩ := runTransactions_cons_next.1 hr
    refine runTransactions_keeps h rest m s' ?_ h2
    rcases runTransaction_cases t s with ⟨i, -, hi⟩ | ⟨-, hi⟩
    · exact h i s m hs (hi ▸ h1)
    · rw [hi] at h1
      cases h1

/-- Everything a step that answers a next state can have done. -/
theorem step_cases {s s' : State} (h : step s = .next s') :
    (s.pending = [] ∧ s' = s) ∨
    ∃ p rest, s.pending = p :: rest ∧
      ((p.rst = true ∧ s' = resetBlock (latchPorts p { s with pending := rest })) ∨
       (p.rst = false ∧ (p.regWe && p.regRe) = false ∧ offerChanged p { s with pending := rest } = false ∧
        runTransactions (cycleTransactions p { s with pending := rest }) (latchPorts p { s with pending := rest }) =
          .next s')) := by
  unfold step at h
  split at h
  · next hp => exact .inl ⟨hp, by simpa using h.symm⟩
  · next p rest hp =>
    refine .inr ⟨p, rest, hp, ?_⟩
    unfold runCycle at h
    split at h
    · next hr =>
      rw [runTransaction_of_decode (i := .reset) rfl] at h
      exact .inl ⟨hr, by simpa [exec, execReset] using h.symm⟩
    · next hr =>
      split at h
      · cases h
      · next hb =>
        split at h
        · cases h
        · next ho => exact .inr ⟨by simpa using hr, by simpa using hb, by simpa using ho, h⟩

/-- An edge that carries one transaction runs that transaction alone. -/
theorem cycleTransactions_pins (t : Transaction) (s : State) (h : t ≠ .reset) : cycleTransactions t.pins s = [t] := by
  cases t with
  | reset => exact absurd rfl h
  | regRead a => rfl
  | regWrite a d => rfl
  | inBeat v =>
    have := packBeat_unpackBeat v
    simp [cycleTransactions, readTransactions, streamTransactions, writeTransactions, Transaction.pins, quietPins, this]
  | outBeat =>
    simp [cycleTransactions, readTransactions, streamTransactions, writeTransactions, Transaction.pins, quietPins]

/-- An edge with one transaction, whose held byte is not changed, runs it. -/
theorem runCycle_pins (t : Transaction) (s : State) (h : offerChanged t.pins s = false) :
    runCycle t.pins s = runTransaction t (latchPorts t.pins s) := by
  by_cases ht : t = .reset
  · subst ht
    rfl
  · have h1 : t.pins.rst = false := by cases t <;> first | rfl | exact absurd rfl ht
    have h2 : (t.pins.regWe && t.pins.regRe) = false := by cases t <;> rfl
    simp [runCycle, h1, h2, h, cycleTransactions_pins t s ht]

end Sys2Proof.Machine
end

