-- ==== Sys2Proof/Laws/Invariant.lean ====
section
/-! SUPPORT. The invariant under each shared operation and each meaning: no event leaves it, and none faults. -/

namespace Sys2Proof.Machine

/-- The invariant says nothing of the host's side of the ports. -/
theorem Inv.ports {s : State} (h : Inv s) (resp : Option Word) (wait : Option Beat) (out : List Beat) (pend : List Pins)
    (k : Nat) :
    Inv { s with readResp := resp, waiting := wait, outStream := out, pending := pend, freeCount := k } :=
  ⟨h.rowA, h.rowB, h.rowOut, h.code, h.lanes, h.idle, h.acqA, h.acqB, h.emit, h.done⟩

/-- An error keeps every buffer and enters ERROR (R125). -/
theorem Inv.raise {s : State} (h : Inv s) {code : ErrCode} (hc : code ≠ .none) : Inv (raiseError code s) where
  rowA := h.rowA
  rowB := h.rowB
  rowOut := h.rowOut
  code := by simp [hc]
  lanes := h.lanes
  idle := by simp
  acqA := by simp
  acqB := by simp
  emit := by simp
  done := by simp

/-- A START that fails leaves the clearing of R117 and the error (R126). -/
theorem Inv.clear {s : State} (h : Inv s) {code : ErrCode} (hc : code ≠ .none) : Inv (raiseError code (clearRun s)) where
  rowA := h.rowA
  rowB := h.rowB
  rowOut := h.rowOut
  code := by simp [hc]
  lanes := by simp [State.lanes]
  idle := by simp
  acqA := by simp
  acqB := by simp
  emit := by simp
  done := by simp

/-- What the five checks of START establish when they pass (R118). -/
theorem dispatchError_none {s : State} (h : dispatchError s = none) :
    requiredType s.cfgBpp = some s.cfgType ∧ s.cfgWidth ≠ 0#16 ∧ s.cfgHeight ≠ 0#16 ∧ s.cfgWidth ≤ s.maxWidth := by
  unfold dispatchError at h
  split at h
  · cases h
  · next hw =>
    split at h
    · cases h
    · next hh =>
      cases hr : requiredType s.cfgBpp with
      | none => simp [hr] at h
      | some req =>
        simp only [hr] at h
        split at h
        · cases h
        · next ht =>
          split at h
          · cases h
          · next hm =>
            refine ⟨?_, hw, hh, BitVec.not_lt.1 hm⟩
            simp only [not_not] at ht
            rw [ht]

/-- Every error START raises is a format error (R118). -/
theorem dispatchError_some {s : State} {code : ErrCode} (h : dispatchError s = some code) :
    code = .badInputFormat ∨ code = .unsupportedInputFormat := by
  unfold dispatchError at h
  repeat' split at h
  all_goals simp_all

/-- START in IDLE or DONE (R117 to R119). -/
theorem Inv.dispatch {s : State} (h : Inv s) (hs : s.runState = .idle ∨ s.runState = .done) : Inv (dispatchFrame s) := by
  have hcode : s.errCode = .none := h.code.2 (by rcases hs with hs | hs <;> simp [hs])
  unfold dispatchFrame
  split
  · next code hd =>
    refine h.clear ?_
    rcases dispatchError_some hd with rfl | rfl <;> simp
  · next hd =>
    obtain ⟨h1, h2, h3, h4⟩ := dispatchError_none hd
    have hf : FormatOk (enterAcqA { clearRun s with n := laneCount s.cfgBpp }) := ⟨h1, rfl, h2, h3, h4⟩
    have hl := hf.lanes_bounds
    have hw := hf.width_pos
    have hh := hf.height_pos
    refine ⟨h.rowA, h.rowB, h.rowOut, by simp [hcode], hl.2, by simp, fun _ => ?_, by simp, by simp, by simp⟩
    refine ⟨hf, rfl, hh, ?_, rfl, fun t ht => absurd ht (by simp)⟩
    show 0 < _
    unfold State.rowBytes
    exact Nat.mul_pos hw hl.1

/-- ABORT (R84). -/
theorem Inv.abandon {s : State} (_ : Inv s) : Inv (abandonFrame s) where
  rowA := BufferOk.nil _
  rowB := BufferOk.nil _
  rowOut := BufferOk.nil _
  code := by simp
  lanes := by simp [State.lanes]
  idle := fun _ => ⟨rfl, rfl, rfl, rfl, rfl, rfl⟩
  acqA := by simp
  acqB := by simp
  emit := by simp
  done := by simp

/-- Reset, whatever came before it (R137). -/
theorem Inv.resetBlock (s : State) : Inv (resetBlock s) where
  rowA := BufferOk.nil _
  rowB := BufferOk.nil _
  rowOut := BufferOk.nil _
  code := by simp
  lanes := by simp [State.lanes]
  idle := fun _ => ⟨rfl, rfl, rfl, rfl, rfl, rfl⟩
  acqA := by simp
  acqB := by simp
  emit := by simp
  done := by simp

/-- A counter that is below a 16-bit bound does not wrap. -/
theorem half_succ {v : Half} (h : v.toNat < 65535) : (v + 1#16).toNat = v.toNat + 1 := by
  simp only [BitVec.toNat_add, BitVec.toNat_ofNat]
  omega

/-- IN_POS + 1 fits while it stays inside the row: "IN_POS never overflows its 18 bits" (R100). -/
theorem inPos_succ {s : State} (hf : FormatOk s) (h : s.inPos.toNat + 1 < s.rowBytes) :
    (s.inPos + 1#18).toNat = s.inPos.toNat + 1 := by
  have hl := hf.lanes_bounds
  have hw := s.width_lt
  have : s.rowBytes ≤ 65535 * 4 := Nat.mul_le_mul (by omega) hl.2
  simp only [BitVec.toNat_add, BitVec.toNat_ofNat]
  omega

/-- OUT_POS + 1 fits while it stays inside the output row (R17: "OUT_POS ≤ 131071 fits 17 bits"). -/
theorem outPos_succ {s : State} (hf : FormatOk s) (h : s.outPos.toNat + 1 < s.outRowBytes) :
    (s.outPos + 1#17).toNat = s.outPos.toNat + 1 := by
  have hl := hf.lanes_bounds
  have hw := s.width_lt
  have : s.outRowBytes ≤ 32768 * 4 := Nat.mul_le_mul (by unfold State.widthOut; omega) hl.2
  simp only [BitVec.toNat_add, BitVec.toNat_ofNat]
  omega

/-- A byte stored in ACQ_A: no fault, and the invariant holds after it (R45, R46, R100, R102). -/
theorem Inv.storeA {s : State} (h : Inv s) (hs : s.runState = .acqA) (d : Byte) :
    ∃ t, storeInA d s = .ok t ∧ Inv t := by
  obtain ⟨hf, hrows, hlt, hpos, hself, hbytes⟩ := h.acqA hs
  have hcode : s.errCode = .none := h.code.2 (by simp [hs])
  have hl := hf.lanes_bounds
  have hb := slot_bounds hpos hl.1
  have hfit := hf.fits
  have hH := s.height_lt
  have hsucc : (s.inRows + 1#16).toNat = s.inRows.toNat + 1 := half_succ (by omega)
  cases he : s.atRowEnd with
  | false =>
    have hne : s.inPos.toNat + 1 < s.rowBytes := by
      have : ¬ s.inPos.toNat + 1 = s.rowBytes := by simpa [State.atRowEnd] using he
      omega
    refine ⟨_, storeInA_mid hf hpos he d, ⟨h.rowA.write (by omega) (by omega) d, h.rowB, h.rowOut, h.code, h.lanes,
      by simp [hs], fun _ => ?_, by simp [hs], by simp [hs], by simp [hs]⟩⟩
    have hp : (s.inPos + 1#18).toNat = s.inPos.toNat + 1 := inPos_succ hf hne
    refine ⟨hf, hrows, hlt, ?_, hself, ?_⟩
    · show (s.inPos + 1#18).toNat < _
      rw [hp]; exact hne
    · show BytesWritten _ _ (s.inPos + 1#18).toNat
      rw [hp]
      exact bytesWritten_store hl.1 hl.2 hbytes d
  | true =>
    cases hsp : s.selfPair with
    | false =>
      obtain ⟨a, -, hstore, hdone, hbuf⟩ := storeInA_pair hf hpos he hsp hbytes d
      refine ⟨_, hstore, ⟨hbuf h.rowA, h.rowB, h.rowOut, by simp [hcode], h.lanes, by simp, by simp, fun _ => ?_,
        by simp, by simp⟩⟩
      have hnl : ¬ s.inRows.toNat + 1 = s.height := by
        rw [hsp] at hself
        simpa [State.onLastRow] using hself.symm
      refine ⟨hf, ?_, ?_, ?_, hsp, hdone, fun t ht => absurd ht (by simp)⟩
      · show (s.inRows + 1#16).toNat = _
        rw [hsucc, hrows]; rfl
      · show (s.inRows + 1#16).toNat < s.height
        omega
      · show 0 < s.rowBytes
        omega
    | true =>
      obtain ⟨a, out, -, hstore, hdone, hred, -, hbuf, hobuf⟩ := storeInA_self hf hpos he hsp hbytes d
      refine ⟨_, hstore, ⟨hbuf h.rowA, h.rowB, hobuf h.rowOut, by simp [hcode], h.lanes, by simp, by simp, by simp,
        fun _ => ?_, by simp⟩⟩
      have hnl : s.inRows.toNat + 1 = s.height := by
        rw [hsp] at hself
        simpa [State.onLastRow] using hself.symm
      have hsec : (enterEmit { s with rowA := a, inRows := s.inRows + 1#16, rowOut := out }).secondRow = a := by
        simp [State.secondRow, hsp]
      refine ⟨hf, ?_, ?_, ?_, ?_, hdone, by rw [hsec]; exact hdone, ?_⟩
      · show s.outRows.toNat < s.heightOut
        unfold State.heightOut; omega
      · show 0 < s.outRowBytes
        have := hf.width_pos
        exact Nat.mul_pos (by unfold State.widthOut; omega) hl.1
      · show (s.inRows + 1#16).toNat ≤ s.height
        omega
      · simp only [enterEmit_keeps, hsp, if_true]
        refine ⟨?_, ?_⟩
        · show (s.inRows + 1#16).toNat = s.height
          omega
        · omega
      · intro k hk c hc
        rw [hsec]
        exact hred k hk c hc

/-- A byte stored in ACQ_B: no fault, and the invariant holds after it (R45, R46, R100, R102). -/
theorem Inv.storeB {s : State} (h : Inv s) (hs : s.runState = .acqB) (d : Byte) :
    ∃ t, storeInB d s = .ok t ∧ Inv t := by
  obtain ⟨hf, hrows, hlt, hpos, hself, hA, hbytes⟩ := h.acqB hs
  have hcode : s.errCode = .none := h.code.2 (by simp [hs])
  have hl := hf.lanes_bounds
  have hb := slot_bounds hpos hl.1
  have hfit := hf.fits
  have hH := s.height_lt
  have hsucc : (s.inRows + 1#16).toNat = s.inRows.toNat + 1 := half_succ (by omega)
  cases he : s.atRowEnd with
  | false =>
    have hne : s.inPos.toNat + 1 < s.rowBytes := by
      have : ¬ s.inPos.toNat + 1 = s.rowBytes := by simpa [State.atRowEnd] using he
      omega
    refine ⟨_, storeInB_mid hf hpos he d, ⟨h.rowA, h.rowB.write (by omega) (by omega) d, h.rowOut, h.code, h.lanes,
      by simp [hs], by simp [hs], fun _ => ?_, by simp [hs], by simp [hs]⟩⟩
    have hp : (s.inPos + 1#18).toNat = s.inPos.toNat + 1 := inPos_succ hf hne
    refine ⟨hf, hrows, hlt, ?_, hself, hA, ?_⟩
    · show (s.inPos + 1#18).toNat < _
      rw [hp]; exact hne
    · show BytesWritten _ _ (s.inPos + 1#18).toNat
      rw [hp]
      exact bytesWritten_store hl.1 hl.2 hbytes d
  | true =>
    obtain ⟨b, out, -, hstore, hdone, hred, -, hbuf, hobuf⟩ := storeInB_end hf hpos he hA hbytes d
    refine ⟨_, hstore, ⟨h.rowA, hbuf h.rowB, hobuf h.rowOut, by simp [hcode], h.lanes, by simp, by simp, by simp,
      fun _ => ?_, by simp⟩⟩
    have hsec : (enterEmit { s with rowB := b, inRows := s.inRows + 1#16, rowOut := out }).secondRow = b := by
      simp [State.secondRow, hself]
    refine ⟨hf, ?_, ?_, ?_, ?_, hA, by rw [hsec]; exact hdone, ?_⟩
    · show s.outRows.toNat < s.heightOut
      unfold State.heightOut; omega
    · show 0 < s.outRowBytes
      have := hf.width_pos
      exact Nat.mul_pos (by unfold State.widthOut; omega) hl.1
    · show (s.inRows + 1#16).toNat ≤ s.height
      omega
    · simp only [enterEmit_keeps, hself]
      show (s.inRows + 1#16).toNat = 2 * s.outRows.toNat + 2
      omega
    · intro k hk c hc
      rw [hsec]
      exact hred k hk c hc

/-- The presented byte taken (R45, R114). -/
theorem Inv.advance {s : State} (h : Inv s) (hs : s.runState = .emit) : Inv (advanceOut s) := by
  obtain ⟨hf, hlt, hpos, hle, hpair, hA, hB, hred⟩ := h.emit hs
  have hcode : s.errCode = .none := h.code.2 (by simp [hs])
  have hl := hf.lanes_bounds
  have hH := s.height_lt
  have hlt' : s.outRows.toNat < (s.height + 1) / 2 := hlt
  have hsucc : (s.outRows + 1#16).toNat = s.outRows.toNat + 1 := half_succ (by omega)
  unfold advanceOut
  cases he : s.atOutRowEnd with
  | false =>
    have hne : s.outPos.toNat + 1 < s.outRowBytes := by
      have : ¬ s.outPos.toNat + 1 = s.outRowBytes := by simpa [State.atOutRowEnd] using he
      omega
    refine ⟨h.rowA, h.rowB, h.rowOut, h.code, h.lanes, by simp [hs], by simp [hs], by simp [hs], fun _ => ?_,
      by simp [hs]⟩
    refine ⟨hf, hlt, ?_, hle, hpair, hA, hB, hred⟩
    show (s.outPos + 1#17).toNat < s.outRowBytes
    rw [outPos_succ hf hne]
    exact hne
  | true =>
    simp only [if_true, State.heightOut, State.height, hsucc]
    by_cases hd : s.outRows.toNat + 1 = (s.cfgHeight.toNat + 1) / 2
    · rw [if_pos hd]
      refine ⟨h.rowA, h.rowB, h.rowOut, by simp [hcode], h.lanes, by simp, by simp, by simp, by simp, fun _ => ?_⟩
      refine ⟨hl.1, hl.2, ?_, ?_⟩
      · show 1 ≤ s.inRows.toNat
        split at hpair <;> omega
      · show (s.outRows + 1#16).toNat = (s.inRows.toNat + 1) / 2
        rw [hsucc]
        split at hpair <;> omega
    · rw [if_neg hd]
      have hd' : ¬ s.outRows.toNat + 1 = (s.height + 1) / 2 := hd
      have hrows : s.inRows.toNat = 2 * (s.outRows.toNat + 1) ∧ s.inRows.toNat < s.height := by
        split at hpair <;> omega
      refine ⟨h.rowA, h.rowB, h.rowOut, by simp [hcode], h.lanes, by simp, fun _ => ?_, by simp, by simp, by simp⟩
      refine ⟨hf, ?_, hrows.2, ?_, rfl, fun t ht => absurd ht (by simp)⟩
      · show s.inRows.toNat = 2 * (s.outRows + 1#16).toNat
        rw [hsucc]; exact hrows.1
      · show 0 < s.rowBytes
        exact Nat.mul_pos hf.width_pos hl.1

end Sys2Proof.Machine
end

