-- ==== Sys2Proof/Laws/Events.lean ====
section
/-! SUPPORT. Everything an event can do when it answers a next state, said once: the inversion lemma of `exec`, and the
frames of its parts. -/

namespace Sys2Proof.Machine

/-- What an event i did to s, by kind. -/
inductive Effect (i : Instr) (s : State) : State → Prop
  /-- NOP, an ignored write, an ignored command, a beat that waits. -/
  | unchanged : Effect i s s
  /-- A register read. -/
  | answered (v : Word) : Effect i s (respond v s)
  /-- A SET command taken in IDLE or DONE. -/
  | configured (bpp imgType : Byte) (w h : Half) :
      (s.runState = .idle ∨ s.runState = .done) →
      (i = .setFormat bpp imgType ∧ w = s.cfgWidth ∧ h = s.cfgHeight) ∨
        (i = .setWidth w ∧ bpp = s.cfgBpp ∧ imgType = s.cfgType ∧ h = s.cfgHeight) ∨
        (i = .setHeight h ∧ bpp = s.cfgBpp ∧ imgType = s.cfgType ∧ w = s.cfgWidth) →
      Effect i s { s with cfgBpp := bpp, cfgType := imgType, cfgWidth := w, cfgHeight := h }
  /-- START taken in IDLE or DONE. -/
  | started : i = .start → (s.runState = .idle ∨ s.runState = .done) → Effect i s (dispatchFrame s)
  | aborted : i = .abort → Effect i s (abandonFrame s)
  | resetted : i = .reset → Effect i s (resetBlock s)
  /-- An ILLEGAL word, or a command that a run forbids. -/
  | rejected : s.runState ≠ .error →
      (∃ w, i = .illegal w ∨ i = .illegalHigh w) ∨
        ((s.runState = .acqA ∨ s.runState = .acqB ∨ s.runState = .emit) ∧
          ((∃ bpp imgType, i = .setFormat bpp imgType) ∨ (∃ w, i = .setWidth w) ∨ (∃ h, i = .setHeight h) ∨
            i = .start)) →
      Effect i s (raiseError .illegalCommand s)
  /-- A truncating beat. -/
  | truncated (d : Byte) : i = .inBeat d true → (s.runState = .acqA ∨ s.runState = .acqB) → s.atFrameEnd = false →
      Effect i s (raiseError .badInputFormat s)
  | storedA (d : Byte) (last : Bool) (t : State) : i = .inBeat d last → truncates last s = false →
      s.runState = .acqA → storeInA d s = .ok t → Effect i s t
  | storedB (d : Byte) (last : Bool) (t : State) : i = .inBeat d last → truncates last s = false →
      s.runState = .acqB → storeInB d s = .ok t → Effect i s t
  | taken (d : Byte) : i = .outBeat → s.runState = .emit →
      readSlot s.outPixels s.rowOut (pixelOf s.outPos.toNat s.lanes) (laneOf s.outPos.toNat s.lanes) = .ok d →
      Effect i s (advanceOut { s with outStream := s.outStream ++ [{ data := d, last := s.outLast }] })

theorem outcomeOf_next {e : Except Fault State} {t : State} (h : outcomeOf e = .next t) : e = .ok t := by
  cases e with
  | ok a => exact congrArg _ (by simpa [outcomeOf] using h)
  | error f => simp [outcomeOf] at h

/-- A command a run forbids and an error ignores (R78). -/
theorem whenStopped_cases (f : State → State) (s : State) :
    (s.runState = .error ∧ whenStopped f s = s) ∨
    ((s.runState = .acqA ∨ s.runState = .acqB ∨ s.runState = .emit) ∧ s.runState ≠ .error ∧
      whenStopped f s = raiseError .illegalCommand s) ∨
    ((s.runState = .idle ∨ s.runState = .done) ∧ whenStopped f s = f s) := by
  cases h : s.runState <;> simp [whenStopped, h]

theorem illegalWord_cases (s : State) :
    (s.runState = .error ∧ illegalWord s = s) ∨
    (s.runState ≠ .error ∧ illegalWord s = raiseError .illegalCommand s) := by
  cases h : s.runState <;> simp [illegalWord, h]

/-- Everything an event that answers a next state can have done. -/
theorem exec_cases {i : Instr} {s t : State} (h : exec i s = .next t) : Effect i s t := by
  cases i with
  | nop => cases h; exact .unchanged
  | wrOther r data => cases h; exact .unchanged
  | abort => cases h; exact .aborted rfl
  | reset => cases h; exact .resetted rfl
  | rdCmd => cases h; exact .answered _
  | rdStatus => cases h; exact .answered _
  | rdFormat => cases h; exact .answered _
  | rdDim => cases h; exact .answered _
  | rdOutDim => cases h; exact .answered _
  | rdProgress => cases h; exact .answered _
  | rdParam => cases h; exact .answered _
  | rdRsvd => cases h; exact .answered _
  | illegal w =>
    cases h
    rcases illegalWord_cases s with ⟨-, he⟩ | ⟨hs, he⟩ <;> rw [he]
    · exact .unchanged
    · exact .rejected hs (.inl ⟨w, .inl rfl⟩)
  | illegalHigh w =>
    cases h
    rcases illegalWord_cases s with ⟨-, he⟩ | ⟨hs, he⟩ <;> rw [he]
    · exact .unchanged
    · exact .rejected hs (.inl ⟨w, .inr rfl⟩)
  | setFormat bpp imgType =>
    cases h
    rcases whenStopped_cases (fun s => { s with cfgBpp := bpp, cfgType := imgType }) s with
      ⟨-, he⟩ | ⟨hb, hs, he⟩ | ⟨hs, he⟩ <;> rw [he]
    · exact .unchanged
    · exact .rejected hs (.inr ⟨hb, .inl ⟨_, _, rfl⟩⟩)
    · exact .configured bpp imgType s.cfgWidth s.cfgHeight hs (.inl ⟨rfl, rfl, rfl⟩)
  | setWidth w =>
    cases h
    rcases whenStopped_cases (fun s => { s with cfgWidth := w }) s with
      ⟨-, he⟩ | ⟨hb, hs, he⟩ | ⟨hs, he⟩ <;> rw [he]
    · exact .unchanged
    · exact .rejected hs (.inr ⟨hb, .inr (.inl ⟨_, rfl⟩)⟩)
    · exact .configured s.cfgBpp s.cfgType w s.cfgHeight hs (.inr (.inl ⟨rfl, rfl, rfl, rfl⟩))
  | setHeight hgt =>
    cases h
    rcases whenStopped_cases (fun s => { s with cfgHeight := hgt }) s with
      ⟨-, he⟩ | ⟨hb, hs, he⟩ | ⟨hs, he⟩ <;> rw [he]
    · exact .unchanged
    · exact .rejected hs (.inr ⟨hb, .inr (.inr (.inl ⟨_, rfl⟩))⟩)
    · exact .configured s.cfgBpp s.cfgType s.cfgWidth hgt hs (.inr (.inr ⟨rfl, rfl, rfl, rfl⟩))
  | start =>
    cases h
    rcases whenStopped_cases dispatchFrame s with ⟨-, he⟩ | ⟨hb, hs, he⟩ | ⟨hs, he⟩ <;> rw [he]
    · exact .unchanged
    · exact .rejected hs (.inr ⟨hb, .inr (.inr (.inr rfl))⟩)
    · exact .started rfl hs
  | inBeat d last =>
    simp only [exec, execInBeat] at h
    split at h
    case h_1 hs =>
      cases ht : truncates last s with
      | true =>
        simp only [ht, if_true, Host.Outcome.next.injEq] at h
        simp only [truncates, Bool.and_eq_true, Bool.not_eq_true'] at ht
        subst h
        exact .truncated d (by rw [ht.1]) (.inl hs) ht.2
      | false =>
        simp only [ht, Bool.false_eq_true, if_false] at h
        exact .storedA d last t rfl ht hs (outcomeOf_next h)
    case h_2 hs =>
      cases ht : truncates last s with
      | true =>
        simp only [ht, if_true, Host.Outcome.next.injEq] at h
        simp only [truncates, Bool.and_eq_true, Bool.not_eq_true'] at ht
        subst h
        exact .truncated d (by rw [ht.1]) (.inr hs) ht.2
      | false =>
        simp only [ht, Bool.false_eq_true, if_false] at h
        exact .storedB d last t rfl ht hs (outcomeOf_next h)
    all_goals
      cases h
      exact .unchanged
  | outBeat =>
    simp only [exec, execOutBeat] at h
    split at h
    case h_1 hs =>
      split at h
      · next d hd =>
        cases h
        exact .taken d rfl hs hd
      · cases h
    all_goals
      cases h
      exact .unchanged

/-- No meaning refuses: a refusal is an edge's alone. -/
theorem exec_ne_refused (i : Instr) (s : State) (r : Refusal) : exec i s ≠ .refused r := by
  have ho : ∀ e : Except Fault State, outcomeOf e ≠ .refused r := fun e => by cases e <;> simp [outcomeOf]
  cases i <;> simp only [exec, execNop, execSetFormat, execSetWidth, execSetHeight, execStart, execAbort, execIllegal,
    execIllegalHigh, execWrOther, execRdCmd, execRdStatus, execRdFormat, execRdDim, execRdOutDim, execRdProgress,
    execRdParam, execRdRsvd, execReset, execInBeat, execOutBeat] <;>
    repeat' split
  all_goals first | exact ho _ | simp

/-- The two ends of an accepted START (R117 to R120). -/
theorem dispatchFrame_cases (s : State) :
    (dispatchError (clearRun s) = none ∧ dispatchFrame s = { s with
      runState := .acqA, n := laneCount s.cfgBpp, selfPair := decide (0 + 1 = s.height)
      inRows := 0#16, outRows := 0#16, inPos := 0#18, outPos := 0#17 }) ∨
    ∃ code, dispatchError (clearRun s) = some code ∧ dispatchFrame s = { s with
      runState := .error, errCode := code, n := 0#3, selfPair := false
      inRows := 0#16, outRows := 0#16, inPos := 0#18, outPos := 0#17 } := by
  unfold dispatchFrame
  split
  · next c hc => exact .inr ⟨c, hc, rfl⟩
  · next hc => exact .inl ⟨hc, rfl⟩

/-- The fields an input byte stored in ROW_A can change, and the states it can enter (R100, R102). -/
theorem storeInA_frame {d : Byte} {s t : State} (h : storeInA d s = .ok t) (hs : s.runState = .acqA) :
    ∃ a rows run pos opos out,
      t = { s with rowA := a, inRows := rows, runState := run, inPos := pos, outPos := opos, rowOut := out } ∧
      (run = .acqA ∨ run = .acqB ∨ run = .emit) := by
  simp only [storeInA, completeRowA, bind, Except.bind] at h
  split at h
  · cases h
  · split at h
    · split at h
      · cases h
      · split at h
        · split at h
          · cases h
          · cases h; exact ⟨_, _, _, _, _, _, rfl, .inr (.inr rfl)⟩
        · cases h; exact ⟨_, _, _, _, _, _, rfl, .inr (.inl rfl)⟩
    · cases h; exact ⟨_, _, _, _, _, _, rfl, .inl hs⟩

/-- The fields an input byte stored in ROW_B can change, and the states it can enter (R100, R102). -/
theorem storeInB_frame {d : Byte} {s t : State} (h : storeInB d s = .ok t) (hs : s.runState = .acqB) :
    ∃ b rows run pos opos out,
      t = { s with rowB := b, inRows := rows, runState := run, inPos := pos, outPos := opos, rowOut := out } ∧
      (run = .acqB ∨ run = .emit) := by
  simp only [storeInB, completeRowB, bind, Except.bind] at h
  split at h
  · cases h
  · split at h
    · split at h
      · cases h
      · split at h
        · cases h
        · cases h; exact ⟨_, _, _, _, _, _, rfl, .inr rfl⟩
    · cases h; exact ⟨_, _, _, _, _, _, rfl, .inl hs⟩

end Sys2Proof.Machine
end

