-- ==== Sys2Proof/Tests/Slice0.lean ====
section
/-! SUPPORT. Tests on values of the spec (95_test_vectors.md and the rules' own examples), the smoke test of `wellFormed`,
and a witness for the hypotheses of each statement. -/

namespace Sys2Proof.Tests
open Sys2Proof Sys2Proof.Machine

/-- The state an event leaves, if it answers one. -/
def after (i : Instr) (s : State) : Option State :=
  match exec i s with
  | .next t => some t
  | .fault _ => none
  | .refused _ => none

/-- The same for a step. -/
def afterStep (s : State) : Option State :=
  match step s with
  | .next t => some t
  | .fault _ => none
  | .refused _ => none

/-- A configured block in IDLE. -/
def configured (bpp imgType : Byte) (w h : Half) : State :=
  { State.reset with cfgBpp := bpp, cfgType := imgType, cfgWidth := w, cfgHeight := h }

/-- ACQ_A of an 8-bpp frame, with `sofar` held in ROW_A. -/
def inAcqA (w h : Half) (self : Bool) (pos : BitVec 18) (sofar : Memory) : State :=
  { configured 8#8 3#8 w h with runState := .acqA, n := 1#3, selfPair := self, inPos := pos, rowA := sofar }

/-- ACQ_B of the 2 × 2 frame of program P1 with its first row in ROW_A. -/
def inAcqB (pos : BitVec 18) (sofar : Memory) : State :=
  { configured 8#8 3#8 2#16 2#16 with
    runState := .acqB, n := 1#3, inRows := 1#16, inPos := pos, rowA := [(0, 10#8), (4, 20#8)], rowB := sofar }

/-- ACQ_B of a 2 × 2 frame before its last byte: the start state of vector L2.10. -/
def beforeLastByte : State := inAcqB 1#18 [(0, 30#8)]

/-- EMIT of the 2 × 2 frame of program P1. -/
def inEmitP1 : State :=
  { configured 8#8 3#8 2#16 2#16 with
    runState := .emit, n := 1#3, inRows := 2#16, inPos := 1#18
    rowA := [(0, 10#8), (4, 20#8)], rowB := [(0, 30#8), (4, 40#8)], rowOut := [(0, 25#8)] }

/-- EMIT of the first output row of the 3 × 3 frame of program P2. -/
def inEmitP2 (pos : BitVec 17) : State :=
  { configured 8#8 3#8 3#16 3#16 with
    runState := .emit, n := 1#3, inRows := 2#16, inPos := 2#18, outPos := pos
    rowA := [(0, 1#8), (4, 2#8), (8, 3#8), (12, 3#8)], rowB := [(0, 4#8), (4, 5#8), (8, 6#8), (12, 6#8)]
    rowOut := [(0, 3#8), (4, 5#8)] }

/-- EMIT of the self-paired last row of program P2. -/
def inEmitSelf : State :=
  { inEmitP2 1#17 with
    selfPair := true, inRows := 3#16, outRows := 1#16
    rowA := [(0, 7#8), (4, 8#8), (8, 9#8), (12, 9#8)], rowOut := [(0, 8#8), (4, 9#8)] }

/-- ACQ_A of the one-row true-colour frame of program P3 before its last byte. -/
def beforeLastP3 : State :=
  { configured 24#8 2#8 2#16 1#16 with
    runState := .acqA, n := 3#3, selfPair := true, inPos := 5#18
    rowA := [(0, 10#8), (1, 20#8), (2, 30#8), (4, 11#8), (5, 21#8)] }

/-- DONE after program P1. -/
def inDone : State := { inEmitP1 with runState := .done, outRows := 1#16 }

/-- ERROR 7 after a failed START. -/
def inError : State :=
  { configured 24#8 3#8 4#16 4#16 with runState := .error, errCode := .unsupportedInputFormat }

/-! ### Well-formedness: each check refuses an ill-formed term -/

theorem test_wellFormed_illegal_high_word : (Instr.illegal 0x80000000#32).wellFormed = false := by decide
theorem test_wellFormed_illegal_nop_word : (Instr.illegal 0x00000000#32).wellFormed = false := by decide
theorem test_wellFormed_illegal_format_word : (Instr.illegal 0x10000308#32).wellFormed = false := by decide
theorem test_wellFormed_illegalHigh_low_word : (Instr.illegalHigh 0x70000000#32).wellFormed = false := by decide
theorem test_wellFormed_wrOther_cmd : (Instr.wrOther .cmd 0#32).wellFormed = false := by decide
theorem test_wellFormed_illegal_malformed_word : (Instr.illegal 0x5FFFFFFF#32).wellFormed = true := by decide

/-! ### Decoding: one word of each constructor, written out from 30_encoding.md (R68, R73, R74, R76) and L2.1 -/

theorem test_decode_nop : decodeTableWord 32 0b00000000000000000000000000000000 = some .nop := by decide
theorem test_decode_setFormat :
    decodeTableWord 32 0b00010000000000000000001000011000 = some (.setFormat 24#8 2#8) := by decide
theorem test_decode_setFormat_any_operand : decodeTableWord 32 0x1000FFFF = some (.setFormat 255#8 255#8) := by decide
theorem test_decode_setWidth :
    decodeTableWord 32 0b00100000000000001111111111111111 = some (.setWidth 65535#16) := by decide
theorem test_decode_setHeight : decodeTableWord 32 0b00110000000000000000000000000011 = some (.setHeight 3#16) := by decide
theorem test_decode_start : decodeTableWord 32 0b01000000000000000000000000000000 = some .start := by decide
theorem test_decode_abort : decodeTableWord 32 0b01010000000000000000000000000000 = some .abort := by decide
theorem test_decode_illegal :
    decodeTableWord 32 0b01100000000000000000000000000000 = some (.illegal 0x60000000#32) := by decide
theorem test_decode_illegal_malformed :
    [0x00000001, 0x08000000, 0x10010308, 0x20010000, 0x38000003, 0x40000001, 0x5FFFFFFF].all (fun w =>
      decodeTableWord 32 w = some (.illegal (BitVec.ofNat 32 w))) = true := by decide
theorem test_decode_illegalHigh :
    decodeTableWord 32 0b11110000000000000000000000000000 = some (.illegalHigh 0xF0000000#32) := by decide
theorem test_decode_illegalHigh_lowest :
    decodeTableWord 32 0b10000000000000000000000000000000 = some (.illegalHigh 0x80000000#32) := by decide
theorem test_decode_rdCmd : decodeTableWord 8 0b00000000 = some .rdCmd := by decide
theorem test_decode_rdStatus : decodeTableWord 8 0b00000100 = some .rdStatus := by decide
theorem test_decode_rdFormat : decodeTableWord 8 0b00001000 = some .rdFormat := by decide
theorem test_decode_rdDim : decodeTableWord 8 0b00001100 = some .rdDim := by decide
theorem test_decode_rdOutDim : decodeTableWord 8 0b00010000 = some .rdOutDim := by decide
theorem test_decode_rdProgress : decodeTableWord 8 0b00010100 = some .rdProgress := by decide
theorem test_decode_rdParam : decodeTableWord 8 0b00011000 = some .rdParam := by decide
theorem test_decode_rdRsvd : decodeTableWord 8 0b00011100 = some .rdRsvd := by decide
theorem test_decode_wrOther :
    (decode (.regWrite 0b00100#5 0xFFFFFFFF#32)).toOption = some (.wrOther .status 0xFFFFFFFF#32) := by decide
theorem test_decode_inBeat : decodeTableWord 16 0b0000000100101000 = some (.inBeat 40#8 true) := by decide
theorem test_decode_outBeat : (decode .outBeat).toOption = some .outBeat := by decide
theorem test_decode_reset : decodeTableWord 8 0b00000001 = some .reset := by decide
theorem test_decode_misaligned : decodeTableWord 8 0b00000110 = none := by decide
theorem test_byteLanes : ofByteLanes (byteLane 0x00001014#32 0) (byteLane 0x00001014#32 1) (byteLane 0x00001014#32 2)
    (byteLane 0x00001014#32 3) = 0x00001014#32 ∧ byteLane 0x00001014#32 0 = 0x14#8 := by decide

/-! ### Commands (40_commands.md, 43_dispatch.md, L2.2, L2.4) -/

theorem test_nop_done : (after .nop inDone).map statusWord = some 0x00001014#32 := by decide
theorem test_setFormat_idle : (after (.setFormat 24#8 2#8) State.reset).map formatWord = some 0x00000218#32 := by decide
theorem test_setWidth_idle : (after (.setWidth 3#16) State.reset).map dimWord = some 0x00000003#32 := by decide
theorem test_setWidth_run : (after (.setWidth 5#16) beforeLastByte).map (fun t => (statusWord t, dimWord t)) =
    some (0x00001825#32, 0x00020002#32) := by decide
theorem test_setHeight_idle : (after (.setHeight 3#16) State.reset).map outDimWord = some 0x00020000#32 := by decide
theorem test_setHeight_error : (after (.setHeight 3#16) inError).map (fun t => (statusWord t, dimWord t)) =
    some (0x00000725#32, 0x00040004#32) := by decide
/-- Rows of L2.4, from DONE of another frame: the failing ones leave PROGRESS 0. -/
theorem test_start_table :
    [(8, 3, 1, 1, 0x00009009), (8, 3, 2, 2, 0x00001009), (16, 3, 2, 2, 0x00002009), (24, 2, 2, 2, 0x00003009),
      (32, 2, 2, 1, 0x0000C009), (8, 3, 65535, 65535, 0x00001009), (8, 2, 2, 2, 0x00000725), (24, 3, 2, 2, 0x00000725),
      (8, 11, 2, 2, 0x00000725), (15, 3, 2, 2, 0x00000725), (33, 2, 2, 2, 0x00000725), (8, 3, 0, 2, 0x00000625),
      (8, 3, 2, 0, 0x00000625), (7, 0, 0, 0, 0x00000625)].all (fun (bpp, imgType, w, h, status) =>
        (after .start { inDone with
          cfgBpp := BitVec.ofNat 8 bpp, cfgType := BitVec.ofNat 8 imgType
          cfgWidth := BitVec.ofNat 16 w, cfgHeight := BitVec.ofNat 16 h }).map (fun t => (statusWord t, progressWord t)) =
          some (BitVec.ofNat 32 status, 0#32)) = true := by decide
theorem test_start_too_wide : (after .start { configured 8#8 3#8 1025#16 2#16 with maxWidth := 1024#16 }).map statusWord =
    some 0x00000725#32 := by decide
theorem test_abort_error : (after .abort inError).map (fun t => (statusWord t, formatWord t)) =
    some (0#32, 0x00000318#32) := by decide
theorem test_abort_run : (after .abort beforeLastByte).map (fun t => (statusWord t, progressWord t)) =
    some (0#32, 0#32) := by decide
theorem test_illegal_idle : (after (.illegal 0x60000000#32) State.reset).map statusWord = some 0x00000825#32 := by decide
theorem test_illegal_error : (after (.illegal 0x60000000#32) inError).map statusWord = some 0x00000725#32 := by decide
theorem test_illegalHigh_done :
    (after (.illegalHigh 0xF0000000#32) inDone).map statusWord = some 0x00001825#32 := by decide
theorem test_wrOther_status : (after (.wrOther .status 0xFFFFFFFF#32) inDone).map statusWord = some 0x00001014#32 := by decide
theorem test_reset_run : (after .reset beforeLastByte).map (fun t => (statusWord t, dimWord t, t.rowA)) =
    some (0#32, 0#32, []) := by decide

/-! ### Register reads (R87 to R94, L2.8) -/

theorem test_rdCmd : (after .rdCmd inDone).map (·.readResp) = some (some 0#32) := by decide
theorem test_rdStatus_emit : (after .rdStatus { inEmitP1 with n := 3#3, selfPair := true }).map (·.readResp) =
    some (some 0x0000B00B#32) := by decide
theorem test_rdStatus_error : (after .rdStatus inError).map (·.readResp) = some (some 0x00000725#32) := by decide
theorem test_rdFormat : (after .rdFormat inDone).map (·.readResp) = some (some 0x00000308#32) := by decide
theorem test_rdDim : (after .rdDim (configured 0#8 0#8 4#16 2#16)).map (·.readResp) = some (some 0x00020004#32) := by decide
theorem test_rdOutDim_largest :
    (after .rdOutDim (configured 0#8 0#8 65535#16 65535#16)).map (·.readResp) = some (some 0x80008000#32) := by decide
theorem test_rdOutDim_one_row :
    (after .rdOutDim (configured 0#8 0#8 65535#16 1#16)).map (·.readResp) = some (some 0x00018000#32) := by decide
theorem test_rdProgress : (after .rdProgress inDone).map (·.readResp) = some (some 0x00010002#32) := by decide
theorem test_rdParam : (after .rdParam State.reset).map (·.readResp) = some (some 0x0000FFFF#32) := by decide
theorem test_rdRsvd : (after .rdRsvd inError).map (·.readResp) = some (some 0#32) := by decide

/-! ### Streams (R100 to R103, R108, R114, L2.5 to L2.7) -/

theorem test_inBeat_truncates : (after (.inBeat 3#8 true) (inAcqB 0#18 [])).map
    (fun t => (statusWord t, progressWord t, t.rowB)) = some (0x00001625#32, 0x00000001#32, []) := by decide
theorem test_inBeat_completes_rows :
    (after (.inBeat 3#8 false) (inAcqA 3#16 3#16 false 2#18 [(0, 1#8), (4, 2#8)])).map (fun t => (statusWord t, t.rowA)) =
      some (0x0000100A#32, [(0, 1#8), (4, 2#8), (8, 3#8), (12, 3#8)]) ∧
    (after (.inBeat 31#8 true) beforeLastP3).map (fun t => (statusWord t, t.rowOut)) =
      some (0x0000B00B#32, [(0, 11#8), (1, 21#8), (2, 31#8)]) := by decide
theorem test_outBeat_last : (after .outBeat inEmitP1).map (fun t => (statusWord t, progressWord t, t.outStream)) =
    some (0x00001014#32, 0x00010002#32, [⟨25#8, true⟩]) := by decide
theorem test_outBeat_row_end : (after .outBeat (inEmitP2 1#17)).map
    (fun t => (statusWord t, progressWord t, t.outStream)) =
    some (0x00009009#32, 0x00010002#32, [⟨5#8, false⟩]) := by decide
theorem test_avg4_table :
    [(avg4 0 0 0 1, 0), (avg4 0 0 1 1, 1), (avg4 0 1 1 1, 1), (avg4 1 1 1 2, 1), (avg4 1 1 2 2, 2), (avg4 3 3 6 6, 5),
      (avg4 0 0 0 255, 64), (avg4 0 0 255 255, 128), (avg4 254 254 255 255, 255), (avg4 255 255 255 255, 255)].all
      (fun e => e.1 = e.2) = true := by decide

/-! ### Edges (R49, R57, R62, L2.10) -/

/-- The edge of L2.10: the last byte of a pair, together with another strobe. -/
def lastBytePins : Pins := { quietPins with inValid := true, inData := 40#8, inLast := true }

theorem test_step_read_before_beat :
    (afterStep { beforeLastByte with pending := [{ lastBytePins with regRe := true, regAddr := 4#5 }] }).map
      (fun t => (t.readResp, statusWord t)) = some (some 0x0000100A#32, 0x0000100B#32) := by decide
theorem test_step_write_after_beat :
    (afterStep { beforeLastByte with pending :=
      [{ lastBytePins with regWe := true, regAddr := 0#5, regWdata := 0x40000000#32 }] }).map statusWord =
      some 0x00001825#32 := by decide
theorem test_step_abort_after_last_output :
    (afterStep { inEmitP1 with pending :=
      [{ quietPins with outReady := true, regWe := true, regWdata := 0x50000000#32 }] }).map
      (fun t => (statusWord t, t.outStream)) = some (0#32, [⟨25#8, true⟩]) := by decide
theorem test_step_reset_alone :
    (afterStep { beforeLastByte with pending := [{ lastBytePins with rst := true, regRe := true, regWe := true }] }).map
      (fun t => (statusWord t, t.readResp)) = some (0#32, none) := by decide
theorem test_withFetchWord_runs_the_word :
    (afterStep (State.reset.withFetchWord 32 0x10000218)).map formatWord = some 0x00000218#32 := by decide
theorem test_withFetchWord_read :
    (afterStep (State.reset.withFetchWord 8 0x18)).map (·.readResp) = some (some 0x0000FFFF#32) := by decide
theorem test_feedLast : HostLine.expand (.feedLast [7#8, 8#8]) = [.inBeat 0b000000111#9, .inBeat 0b100001000#9] := by decide

/-! ### Witnesses: states of the invariant in every run state -/

theorem inv_inAcqA_first : Inv (inAcqA 2#16 2#16 false 0#18 []) := by
  constructor <;> decide
theorem inv_inAcqA_last : Inv (inAcqA 3#16 3#16 false 2#18 [(0, 1#8), (4, 2#8)]) := by
  constructor <;> decide
theorem inv_inAcqA_self : Inv (inAcqA 1#16 1#16 true 0#18 []) := by
  constructor <;> decide
theorem inv_beforeLastP3 : Inv beforeLastP3 := by
  constructor <;> decide
theorem inv_inAcqB_first : Inv (inAcqB 0#18 []) := by
  constructor <;> decide
theorem inv_beforeLastByte : Inv beforeLastByte := by
  constructor <;> decide
theorem inv_inEmitP1 : Inv inEmitP1 := by
  constructor <;> decide
theorem inv_inEmitP2_first : Inv (inEmitP2 0#17) := by
  constructor <;> decide
theorem inv_inEmitP2_last : Inv (inEmitP2 1#17) := by
  constructor <;> decide
theorem inv_inEmitSelf : Inv inEmitSelf := by
  constructor <;> decide
theorem inv_inEmitSelf_first : Inv { inEmitSelf with outPos := 0#17 } := by
  constructor <;> decide
theorem inv_inDone : Inv inDone := by
  constructor <;> decide
theorem inv_inError : Inv inError := by
  constructor <;> decide

/-! ### Witnesses: the hypotheses of each statement are met -/

theorem witness_DecodeOfEncodeIsTheInstruction :
    [Instr.nop, .setFormat 255#8 0#8, .setWidth 0#16, .setHeight 65535#16, .start, .abort, .illegal 0x00000001#32,
      .illegal 0x7FFFFFFF#32, .illegalHigh 0x80000000#32, .illegalHigh 0xFFFFFFFF#32, .rdCmd, .rdRsvd,
      .wrOther .status 0#32, .wrOther .rsvd 0#32, .inBeat 255#8 true, .outBeat, .reset].all Instr.wellFormed = true := by
  decide

theorem witness_EncodeOfDecodeIsTheTransaction :
    decode (.inBeat 0x1FF#9) = .ok (.inBeat 255#8 true) ∧ decode (.regRead 0x1C#5) = .ok .rdRsvd ∧
    decode (.regWrite 0x00#5 0x7FFFFFFF#32) = .ok (.illegal 0x7FFFFFFF#32) := ⟨rfl, rfl, rfl⟩

/-- A state in each of the six values of STATE: the clauses of the statements about commands and STATUS. -/
theorem witness_everyRunState :
    State.reset.runState = .idle ∧ (inAcqA 2#16 2#16 false 0#18 []).runState = .acqA ∧ beforeLastByte.runState = .acqB ∧
    inEmitP1.runState = .emit ∧ inDone.runState = .done ∧ inError.runState = .error ∧
    inError.errCode = .unsupportedInputFormat ∧ State.reset.errCode = .none := by decide

theorem witness_ReservedAndMalformedWordsRaiseIllegalCommand :
    inError.runState = .error ∧ inDone.runState ≠ .error ∧
    (6 ≤ (0x60000000#32).toNat / 2 ^ 28) ∧ ((0x40000001#32).toNat / 2 ^ 28 = 4 ∧ (0x40000001#32).toNat % 2 ^ 28 ≠ 0) ∧
    ((0x18000000#32).toNat / 2 ^ 28 = 1 ∧ (0x18000000#32).toNat / 2 ^ 16 % 2 ^ 12 ≠ 0) := by decide

theorem witness_OnlyMisalignedAccessesFailToDecode :
    (0x1F#5).toNat % 4 ≠ 0 ∧ decode (.regRead 0x1F#5) = .error .misalignedOffset := by decide

theorem witness_NopAndOtherWritesChangeNothing :
    (0x00000001#32).toNat / 2 ^ 28 = 0 ∧ (0x0FFFFFFF#32).toNat / 2 ^ 28 = 0 ∧
    (0x04#5).toNat % 4 = 0 ∧ (0x1C#5).toNat % 4 = 0 := by decide

/-- A width past a smaller build's MAX_WIDTH, in a configuration whose height is not 0. -/
theorem witness_SetWidthInEveryState :
    ({ configured 8#8 3#8 2#16 2#16 with maxWidth := 1024#16 } : State).runState = .idle ∧
    ({ configured 8#8 3#8 2#16 2#16 with maxWidth := 1024#16 } : State).maxWidth.toNat < (1025#16).toNat ∧
    (configured 8#8 3#8 2#16 2#16).cfgHeight ≠ 0#16 := by decide

theorem witness_SetHeightInEveryState :
    ∃ u, exec .start { configured 8#8 3#8 2#16 2#16 with cfgHeight := 1#16 } = .next u ∧ u.runState = .acqA ∧
      u.selfPair = true := ⟨_, rfl, by decide, by decide⟩

theorem witness_ResetGivesTheResetValues :
    (Transaction.reset).pins.rst = true ∧ ({ inDone with pending := [(Transaction.reset).pins] } : State).pending =
      (Transaction.reset).pins :: [] := by decide

theorem witness_StartDispatchesSupportedFrames :
    inDone.runState = .done ∧ (configured 32#8 2#8 65535#16 65535#16).runState = .idle ∧
    (configured 32#8 2#8 65535#16 65535#16).cfgWidth.toNat ≤ (configured 32#8 2#8 65535#16 65535#16).maxWidth.toNat ∧
    ((configured 32#8 2#8 65535#16 65535#16).cfgBpp, (configured 32#8 2#8 65535#16 65535#16).cfgType, 4#3) ∈
      [(8#8, 3#8, 1#3), (16#8, 3#8, 2#3), (24#8, 2#8, 3#3), (32#8, 2#8, 4#3)] ∧
    (inDone.cfgBpp, inDone.cfgType, 1#3) ∈
      [(8#8, 3#8, 1#3), (16#8, 3#8, 2#3), (24#8, 2#8, 3#3), (32#8, 2#8, 4#3)] := by decide

/-- Each of the five checks of START is the first to fail somewhere. -/
theorem witness_StartRaisesTheFirstFailingCheck :
    (configured 7#8 0#8 0#16 0#16).cfgWidth = 0#16 ∧ (configured 8#8 3#8 2#16 0#16).cfgHeight = 0#16 ∧
    (configured 33#8 2#8 2#16 2#16).cfgBpp ∉ [8#8, 16#8, 24#8, 32#8] ∧
    (configured 24#8 3#8 2#16 2#16).cfgType ≠ 2#8 ∧
    ({ configured 8#8 3#8 1025#16 2#16 with maxWidth := 1024#16 } : State).maxWidth.toNat <
      ({ configured 8#8 3#8 1025#16 2#16 with maxWidth := 1024#16 } : State).cfgWidth.toNat := by decide

theorem witness_BeatsWaitWhereNotEnabled : inEmitP1.runState ≠ .acqA ∧ inEmitP1.runState ≠ .acqB ∧
    beforeLastByte.runState ≠ .emit := by decide

/-- A marked byte is early at the end of a row that is not the last, and inside the last row. -/
theorem witness_EarlyLastRaisesBadInputFormat :
    (inAcqA 2#16 2#16 false 1#18 [(0, 1#8)]).runState = .acqA ∧
    ¬ ((inAcqA 2#16 2#16 false 1#18 [(0, 1#8)]).inRows.toNat + 1 = (inAcqA 2#16 2#16 false 1#18 [(0, 1#8)]).height ∧
      (inAcqA 2#16 2#16 false 1#18 [(0, 1#8)]).inPos.toNat + 1 = (inAcqA 2#16 2#16 false 1#18 [(0, 1#8)]).rowBytes) ∧
    (inAcqB 0#18 []).runState = .acqB ∧
    ¬ ((inAcqB 0#18 []).inRows.toNat + 1 = (inAcqB 0#18 []).height ∧
      (inAcqB 0#18 []).inPos.toNat + 1 = (inAcqB 0#18 []).rowBytes) ∧
    ∃ t, exec (.inBeat 9#8 false) (inAcqB 0#18 []) = .next t :=
  ⟨rfl, by decide, rfl, by decide, _, rfl⟩

theorem witness_InBeatStoresItsByte :
    (Inv (inAcqA 2#16 2#16 false 0#18 []) ∧ (inAcqA 2#16 2#16 false 0#18 []).inPos.toNat + 1 <
      (inAcqA 2#16 2#16 false 0#18 []).rowBytes) ∧
    (Inv (inAcqB 0#18 []) ∧ (inAcqB 0#18 []).inPos.toNat + 1 < (inAcqB 0#18 []).rowBytes) :=
  ⟨⟨inv_inAcqA_first, by decide⟩, inv_inAcqB_first, by decide⟩

theorem witness_FirstRowOfPairEntersAcqB :
    ∃ s, Inv s ∧ s.runState = .acqA ∧ s.inPos.toNat + 1 = s.rowBytes ∧ s.selfPair = false ∧ s.width % 2 = 1 :=
  ⟨_, inv_inAcqA_last, by decide⟩

theorem witness_SelfPairedRowIsReducedAgainstItself :
    (∃ s, Inv s ∧ s.runState = .acqA ∧ s.inPos.toNat + 1 = s.rowBytes ∧ s.selfPair = true ∧ s.width = 1) ∧
    (∃ s, Inv s ∧ s.runState = .acqA ∧ s.inPos.toNat + 1 = s.rowBytes ∧ s.selfPair = true ∧ s.lanes = 3) :=
  ⟨⟨_, inv_inAcqA_self, by decide⟩, _, inv_beforeLastP3, by decide⟩

theorem witness_SecondRowCompletesAndReducesThePair :
    ∃ s, Inv s ∧ s.runState = .acqB ∧ s.inPos.toNat + 1 = s.rowBytes ∧ s.inRows.toNat + 1 = s.height :=
  ⟨_, inv_beforeLastByte, by decide⟩

theorem witness_InputBytesFollowFrameOrder :
    (∃ s, Inv s ∧ s.runState = .acqA ∧ s.height % 2 = 1 ∧ s.inIndex / s.rowBytes = s.height - 1) ∧
    (∃ s, Inv s ∧ s.runState = .acqB) :=
  ⟨⟨_, inv_inAcqA_self, by decide⟩, _, inv_beforeLastByte, by decide⟩

theorem witness_LanesAreIndependent :
    (reduceRows 2 1 [(0, 255#8), (1, 0#8), (4, 0#8), (5, 1#8)] [(0, 255#8), (1, 0#8), (4, 0#8), (5, 1#8)] 2 1 []).toOption =
      some [(0, 128#8), (1, 1#8)] ∧
    (reduceRows 2 1 [(0, 7#8), (1, 0#8), (4, 7#8), (5, 1#8)] [(0, 7#8), (1, 0#8), (4, 7#8), (5, 1#8)] 2 1 []).toOption =
      some [(0, 7#8), (1, 1#8)] := by decide

/-- ROW_OUT with another byte in a lane past the frame's one. -/
theorem witness_LanesAreIndependent_outBeat :
    Inv inEmitP1 ∧ inEmitP1.runState = .emit ∧ Memory.read [(0, 25#8), (1, 99#8)] 1 ≠ inEmitP1.rowOut.read 1 ∧
    (∀ k, ∀ c < inEmitP1.lanes,
      Memory.read [(0, 25#8), (1, 99#8)] (slotAddr k c) = inEmitP1.rowOut.read (slotAddr k c)) := by
  refine ⟨inv_inEmitP1, rfl, by decide, fun k c hc => ?_⟩
  have hc : c < 1 := hc
  have h1 : ¬ 1 = slotAddr k c := by unfold slotAddr; omega
  simp [Memory.read, inEmitP1, h1]

theorem witness_PresentedByteIsTheBlockAverage :
    (∃ s, Inv s ∧ s.runState = .emit ∧ s.selfPair = true) ∧ (∃ s, Inv s ∧ s.runState = .emit ∧ s.selfPair = false) :=
  ⟨⟨_, inv_inEmitSelf, by decide⟩, _, inv_inEmitP1, by decide⟩

/-- Within a row, at the end of a row, and at the end of the frame. -/
theorem witness_OutBeatDeliversAndAdvances :
    (∃ s, Inv s ∧ s.runState = .emit ∧ s.outPos.toNat + 1 ≠ s.outRowBytes) ∧
    (∃ s, Inv s ∧ s.runState = .emit ∧ s.outPos.toNat + 1 = s.outRowBytes ∧ s.outRows.toNat + 1 ≠ s.heightOut) ∧
    (∃ s, Inv s ∧ s.runState = .emit ∧ s.outPos.toNat + 1 = s.outRowBytes ∧ s.outRows.toNat + 1 = s.heightOut) :=
  ⟨⟨_, inv_inEmitP2_first, by decide⟩, ⟨_, inv_inEmitP2_last, by decide⟩, _, inv_inEmitSelf, by decide⟩

theorem witness_DoneIsEnteredWithEveryRowCounted :
    (∃ s t, Inv s ∧ s.runState ≠ .done ∧ exec .outBeat s = .next t ∧ t.runState = .done) ∧
    (∃ s t, Inv s ∧ RowsCounted s ∧ s.runState = .done ∧ exec (.setWidth 4#16) s = .next t ∧ t.runState = .done) :=
  ⟨⟨_, _, inv_inEmitP1, by decide, rfl, by decide⟩, _, _, inv_inDone, by decide, rfl, rfl, by decide⟩

/-- PAIRS and ODD_H at H = 1, 2, 3 and 65535 (R17). -/
theorem test_pairs : [1#16, 2#16, 3#16, 65535#16].map (fun h =>
    ((configured 8#8 3#8 1#16 h).pairs, (configured 8#8 3#8 1#16 h).oddHeight)) =
      [(0, 1), (1, 0), (1, 1), (32767, 1)] := by decide

theorem witness_OutputBytesFollowFrameOrder :
    ∃ s, Inv s ∧ s.runState = .emit ∧ s.selfPair = true ∧ 2 * s.outRows.toNat + 1 = s.height :=
  ⟨_, inv_inEmitSelf, by decide⟩

/-- A failing START and a misplaced command each enter ERROR. -/
theorem witness_ErrorsArePrecise :
    (∃ t, exec .start State.reset = .next t ∧ t.runState = .error) ∧
    (∃ t, exec (.setWidth 5#16) beforeLastByte = .next t ∧ t.runState = .error) ∧
    State.reset.runState ≠ .error ∧ beforeLastByte.runState ≠ .error :=
  ⟨⟨_, rfl, by decide⟩, ⟨_, rfl, by decide⟩, by decide, by decide⟩

/-- Each code of R123 is raised somewhere. -/
theorem witness_ErrorCodesAndTheirCauses :
    (after .start State.reset).map (·.errCode) = some .badInputFormat ∧
    (after (.inBeat 3#8 true) (inAcqB 0#18 [])).map (·.errCode) = some .badInputFormat ∧
    (after .start (configured 24#8 3#8 4#16 4#16)).map (·.errCode) = some .unsupportedInputFormat ∧
    (after (.illegalHigh 0xF0000000#32) State.reset).map (·.errCode) = some .illegalCommand ∧
    (after .start beforeLastByte).map (·.errCode) = some .illegalCommand := by decide

theorem witness_OnlySetCommandsWriteTheConfiguration :
    (∃ t, exec (.setHeight 9#16) State.reset = .next t ∧ t.cfgHeight ≠ State.reset.cfgHeight) ∧
    (∃ t, exec .reset inDone = .next t ∧ t.cfgHeight = 0#16) := ⟨⟨_, rfl, by decide⟩, _, rfl, rfl⟩

theorem witness_OnlyErrorEntryWritesTheErrorCode :
    (∃ s t, Inv s ∧ exec (.illegal 0x60000000#32) s = .next t ∧ t.errCode ≠ s.errCode) ∧
    (∃ s t, Inv s ∧ exec .abort s = .next t ∧ t.errCode ≠ s.errCode ∧ t.runState ≠ .error) :=
  ⟨⟨_, _, inv_inDone, rfl, by decide⟩, _, _, inv_inError, rfl, by decide⟩

theorem witness_OnlyStartAbortAndResetWriteN :
    (∃ t, exec .start (configured 32#8 2#8 2#16 2#16) = .next t ∧ t.n = 4#3) ∧
    (∃ t, exec .abort inDone = .next t ∧ t.n ≠ inDone.n) := ⟨⟨_, rfl, by decide⟩, _, rfl, by decide⟩

theorem witness_RunKeepsItsConfiguration :
    ∃ t, busyFlag (inAcqB 0#18 []).runState = true ∧ exec (.inBeat 30#8 false) (inAcqB 0#18 []) = .next t ∧
      busyFlag t.runState = true := ⟨_, rfl, rfl, by decide⟩

theorem witness_EmitHoldsItsOutput :
    ∃ t, inEmitP1.runState = .emit ∧ exec .rdStatus inEmitP1 = .next t ∧ t.runState ≠ .error := ⟨_, rfl, rfl, by decide⟩

theorem witness_HandshakesFollowTheState :
    inEmitP1.rowOut.read (slotAddr (inEmitP1.outPos.toNat / inEmitP1.lanes) (inEmitP1.outPos.toNat % inEmitP1.lanes)) =
      some 25#8 := by decide

theorem witness_EveryEventCompletesFromTheInvariant : ∃ s, Inv s ∧ s.runState = .emit := ⟨_, inv_inEmitP1, rfl⟩

/-- With no byte waiting, and with the same byte waiting. -/
theorem witness_StepRunsTheDecodedInstruction :
    decode (.inBeat 0b100101000#9) = .ok (.inBeat 40#8 true) ∧
    (Transaction.inBeat 0b100101000#9).pins.inValid = true ∧ State.reset.waiting = none ∧
    (⟨40#8, true⟩ : Beat) =
      ⟨(Transaction.inBeat 0b100101000#9).pins.inData, (Transaction.inBeat 0b100101000#9).pins.inLast⟩ :=
  ⟨rfl, rfl, rfl, rfl⟩

/-- The four kinds of edge of R62 each answer a next state. -/
theorem witness_EdgeEventsTakeEffectInOrder :
    (∃ t, step { beforeLastByte with pending := [{ lastBytePins with rst := true }] } = .next t) ∧
    (∃ t, step { beforeLastByte with pending := [{ lastBytePins with regRe := true, regAddr := 4#5 }] } = .next t) ∧
    offerChanged lastBytePins { beforeLastByte with pending := [lastBytePins] } = false ∧
    (∃ t, step { beforeLastByte with pending := [{ lastBytePins with regWe := false }] } = .next t) :=
  ⟨⟨_, rfl⟩, ⟨_, rfl⟩, rfl, _, rfl⟩

theorem witness_ReadDataIsOnThePortNextCycle :
    ∃ t, step { inDone with pending := [{ quietPins with regRe := true, regAddr := 0x1C#5 }] } = .next t := ⟨_, rfl⟩

theorem witness_ForbiddenEdgesAreRefused :
    step { inDone with pending := [{ quietPins with regRe := true, regWe := true }] } = .refused .simultaneousAccess ∧
    step { inDone with waiting := some ⟨7#8, false⟩, pending := [lastBytePins] } = .refused .inputNotHeld ∧
    step { inDone with pending := [{ quietPins with regRe := true, regAddr := 0x1F#5 }] } = .refused .misalignedAccess ∧
    step { inDone with pending := [{ quietPins with regWe := true, regAddr := 0x01#5 }] } = .refused .misalignedAccess :=
  ⟨rfl, rfl, rfl, rfl⟩

theorem witness_OnlyForbiddenEdgesAreRefused :
    ∃ s : State, step s = .refused .misalignedAccess :=
  ⟨{ inDone with pending := [{ quietPins with regWe := true, regAddr := 0x02#5 }] }, rfl⟩

theorem witness_QuietEdgesChangeNothing :
    inDone.pending = [] ∧ quietPins.rst = false ∧ quietPins.regWe = false ∧ quietPins.regRe = false ∧
    quietPins.inValid = false ∧ inDone.runState ≠ .emit := by decide

theorem witness_TakenBytesStayTaken :
    ∃ t, step { inEmitP1 with pending := [{ quietPins with outReady := true }] } = .next t ∧
      t.outStream = [⟨25#8, true⟩] := ⟨_, rfl, by decide⟩

theorem witness_StepKeepsTheInvariant : ∃ s t, Inv s ∧ step s = .next t := ⟨_, _, inv_inEmitP1, rfl⟩

theorem witness_NoStepFaultsFromTheInvariant : ∃ s, Inv s ∧ s.runState = .emit := ⟨_, inv_inEmitP2_first, rfl⟩

theorem witness_StartOwesTheWholeFrame :
    ∃ t, inDone.runState = .done ∧ exec .start inDone = .next t ∧ t.runState = .acqA := ⟨_, rfl, rfl, by decide⟩

/-- A byte inside a row, the last byte of a row and the last byte of the frame. -/
theorem witness_BeatsPayTheFrameByteByByte :
    (∃ s t, Inv s ∧ s.runState = .acqA ∧ exec (.inBeat 1#8 false) s = .next t ∧ t.runState ≠ .error) ∧
    (∃ s t, Inv s ∧ s.runState = .acqB ∧ exec (.inBeat 40#8 true) s = .next t ∧ t.runState ≠ .error) ∧
    (∃ s t, Inv s ∧ s.runState = .emit ∧ exec .outBeat s = .next t ∧ t.runState = .done) :=
  ⟨⟨_, _, inv_inAcqA_first, by decide, rfl, by decide⟩, ⟨_, _, inv_beforeLastByte, by decide, rfl, by decide⟩,
    _, _, inv_inEmitP1, by decide, rfl, by decide⟩

theorem witness_DrivenFrameReachesDone : ∃ s, Inv s ∧ busyFlag s.runState = true ∧ s.outputLeft = 2 :=
  ⟨_, inv_inEmitSelf_first, by decide⟩

theorem witness_FrameOutputIsTheBoxFilter :
    ∃ s a, (s.runState = .idle ∨ s.runState = .done) ∧ exec .start s = .next a ∧ a.runState = .acqA ∧ Inv s :=
  ⟨_, _, .inr rfl, rfl, by decide, inv_inDone⟩

theorem witness_SetHeightInDoneBreaksRowCountEquality : ∃ s, Inv s ∧ s.runState = .done ∧ (1#16 : Half) ≠ s.inRows :=
  ⟨_, inv_inDone, by decide⟩

theorem witness_ConfigThenStartDispatches :
    (State.reset.runState = .idle ∨ State.reset.runState = .done) ∧ (65535#16).toNat ≤ State.reset.maxWidth.toNat ∧
    (32#8, 2#8, 4#3) ∈ [(8#8, 3#8, 1#3), (16#8, 3#8, 2#3), (24#8, 2#8, 3#3), (32#8, 2#8, 4#3)] := by decide

end Sys2Proof.Tests
end

section
/-! SUPPORT. Where a stream byte stands in its frame (20_memory.md R54, R55): row, place in the row and component from its
index, and the two statements about the order of the streams. -/

namespace Sys2Proof.Machine

/-- The row of byte `pos` of row r in a stream of rows of `len` bytes. -/
theorem streamIndex_div {r len pos : Nat} (h : pos < len) : (r * len + pos) / len = r := by
  rw [Nat.mul_comm, Nat.mul_add_div (by omega), Nat.div_eq_of_lt h, Nat.add_zero]

/-- The place in its row of byte `pos` of row r. -/
theorem streamIndex_mod {r len pos : Nat} (h : pos < len) : (r * len + pos) % len = pos := by
  rw [Nat.mul_comm, Nat.mul_add_mod, Nat.mod_eq_of_lt h]

/-- Rows are whole pixels, so the component does not depend on the row. -/
theorem streamIndex_lane (r w n pos : Nat) : (r * (w * n) + pos) % n = pos % n := by
  rw [← Nat.mul_assoc, Nat.mul_comm, Nat.mul_add_mod]

/-- Byte `pos` of one of `rows` rows is inside the frame. -/
theorem streamIndex_lt {r rows len pos : Nat} (hr : r < rows) (hpos : pos < len) : r * len + pos < rows * len :=
  calc r * len + pos < (r + 1) * len := by rw [Nat.succ_mul]; omega
    _ ≤ rows * len := Nat.mul_le_mul_right len hr

/-- The row acquired in ACQ_A is self-paired exactly when it is the frame's last (R25). -/
theorem AcqAOk.selfPair_iff {s : State} (h : AcqAOk s) : s.selfPair = true ↔ s.inRows.toNat + 1 = s.height := by
  obtain ⟨-, -, -, -, hself, -⟩ := h
  simp [hself, State.onLastRow]

/-- An acquiring state counts its rows by pairs: an even number before a row of ROW_A, an odd one before a row of ROW_B
(R45). -/
theorem Inv.acquiring {s : State} (h : Inv s) (hs : s.runState = .acqA ∨ s.runState = .acqB) :
    s.inRows.toNat < s.height ∧ s.inPos.toNat < s.rowBytes ∧ (s.runState = .acqA ↔ s.inRows.toNat % 2 = 0) := by
  rcases hs with hs | hs
  · obtain ⟨-, hrows, hlt, hpos, -⟩ := h.acqA hs
    exact ⟨hlt, hpos, by simp [hs, hrows]⟩
  · obtain ⟨-, hrows, hlt, hpos, -⟩ := h.acqB hs
    exact ⟨hlt, hpos, by simp only [hs, reduceCtorEq, false_iff]; omega⟩

/-- Settles O27, by the division of the index into rows and the parity of the rows counted. -/
theorem inputBytesFollowFrameOrder : Obligations.InputBytesFollowFrameOrder := by
  intro s h hs
  obtain ⟨hlt, hpos, hpar⟩ := h.acquiring hs
  have hrow : s.inIndex / s.rowBytes = s.inRows.toNat := streamIndex_div hpos
  have hplace : s.inIndex % s.rowBytes = s.inPos.toNat := streamIndex_mod hpos
  have hlane : s.inIndex % s.lanes = s.inPos.toNat % s.lanes := streamIndex_lane _ s.width _ _
  have hself : s.runState = .acqA → (s.selfPair = true ↔ s.inRows.toNat + 1 = s.height) :=
    fun ha => (h.acqA ha).selfPair_iff
  rw [hrow, hplace, hlane]
  refine ⟨rfl, rfl, rfl, hpar, fun hodd hlast => ?_, fun ha => ?_⟩
  · have ha := hpar.2 (by omega)
    exact ⟨ha, (hself ha).2 (by omega)⟩
  · have heven := hpar.1 ha
    rw [hself ha, State.oddHeight, State.pairs]
    omega

/-- The rows an EMIT state has counted: both of the pair, or the final row of an odd height alone (R45). -/
theorem EmitOk.counted {s : State} (h : EmitOk s) :
    (s.selfPair = true ↔ 2 * s.outRows.toNat + 1 = s.height) ∧
      s.inRows.toNat = min (2 * s.outRows.toNat + 2) s.height := by
  obtain ⟨-, -, -, hle, hpair, -⟩ := h
  cases hself : s.selfPair with
  | true =>
    simp only [hself, if_true] at hpair
    simp only [true_iff]
    omega
  | false =>
    simp only [hself, Bool.false_eq_true, if_false] at hpair
    simp only [Bool.false_eq_true, false_iff]
    omega

/-- Each component of ROW_OUT is the average of the four samples of the rows held (R46, R108). -/
theorem EmitOk.samples {s : State} (h : EmitOk s) {k c : Nat} (hk : k < s.widthOut) (hc : c < s.lanes) :
    ∃ p q r t : Byte, s.rowA.read (slotAddr (2 * k) c) = some p ∧ s.rowA.read (slotAddr (2 * k + 1) c) = some q ∧
      s.secondRow.read (slotAddr (2 * k) c) = some r ∧ s.secondRow.read (slotAddr (2 * k + 1) c) = some t ∧
      s.rowOut.read (slotAddr k c) = some (avg4 p q r t) := by
  obtain ⟨hf, -, -, -, -, ⟨hA, -⟩, ⟨hB, -⟩, hred⟩ := h
  have hlanes := hf.lanes_bounds
  have hfits := hf.fits
  have hlen : 2 * k + 1 < s.rowLen := by unfold State.rowLen; omega
  obtain ⟨p, hp⟩ := Option.isSome_iff_exists.1 (hA (2 * k) (by omega) c hc)
  obtain ⟨q, hq⟩ := Option.isSome_iff_exists.1 (hA (2 * k + 1) hlen c hc)
  obtain ⟨r, hr⟩ := Option.isSome_iff_exists.1 (hB (2 * k) (by omega) c hc)
  obtain ⟨t, ht⟩ := Option.isSome_iff_exists.1 (hB (2 * k + 1) hlen c hc)
  refine ⟨p, q, r, t, hp, hq, hr, ht, ?_⟩
  rw [(hred k hk c hc).2, reduceSlot_ok (by omega) (by omega) hp hq hr ht]
  rfl

/-- Settles O34, by the division of the index into rows, the rows counted, and the samples of the rows held. -/
theorem outputBytesFollowFrameOrder : Obligations.OutputBytesFollowFrameOrder := by
  intro s h hs
  have hE := h.emit hs
  obtain ⟨hself, hrows⟩ := hE.counted
  obtain ⟨-, hlt, hpos, -⟩ := hE
  have hrow : s.outIndex / s.outRowBytes = s.outRows.toNat := streamIndex_div hpos
  have hplace : s.outIndex % s.outRowBytes = s.outPos.toNat := streamIndex_mod hpos
  have hlane : s.outIndex % s.lanes = s.outPos.toNat % s.lanes := streamIndex_lane _ s.widthOut _ _
  have htotal : s.widthOut * s.heightOut * s.lanes = s.heightOut * s.outRowBytes := by
    rw [State.outRowBytes, Nat.mul_comm s.widthOut, Nat.mul_assoc]
  rw [hrow, hplace, hlane, htotal]
  refine ⟨rfl, rfl, rfl, streamIndex_lt hlt hpos, hself, ?_, hrows, fun k hk c hc => ?_⟩
  · rw [hself, State.oddHeight, State.pairs]
    omega
  · obtain ⟨p, q, r, t, hp, hq, hr, ht, ho⟩ := (h.emit hs).samples hk hc
    exact ⟨p, q, r, t, _, hp, hq, hr, ht, ho, avg4_toNat p q r t⟩

end Sys2Proof.Machine
end

section
/-! SUPPORT. From the invariant every event answers a next state: the two beats, which alone can stop, and then `exec`. -/

namespace Sys2Proof.Machine

/-- An input beat stores its byte, raises the truncation error, or waits; it never faults (R46, R100, R103). -/
theorem Inv.execInBeat_next {s : State} (h : Inv s) (d : Byte) (last : Bool) : ∃ t, execInBeat d last s = .next t := by
  cases htr : truncates last s with
  | true => cases hs : s.runState <;> exact ⟨_, by simp only [execInBeat, hs, htr, if_true]; rfl⟩
  | false =>
    cases hs : s.runState with
    | acqA =>
      obtain ⟨t, ht, -⟩ := h.storeA hs d
      exact ⟨t, by simp [execInBeat, hs, htr, ht, outcomeOf]⟩
    | acqB =>
      obtain ⟨t, ht, -⟩ := h.storeB hs d
      exact ⟨t, by simp [execInBeat, hs, htr, ht, outcomeOf]⟩
    | idle | emit | done | error => exact ⟨s, by simp [execInBeat, hs]⟩

/-- Where no byte is presented, an output beat waits (R114). -/
theorem execOutBeat_waits {s : State} (hs : s.runState ≠ .emit) : execOutBeat s = .next s := by
  unfold execOutBeat
  split
  · exact absurd ‹_› hs
  all_goals rfl

/-- An output beat takes the byte that is there, or waits; it never faults (R46, R114). -/
theorem Inv.execOutBeat_next {s : State} (h : Inv s) : ∃ t, execOutBeat s = .next t := by
  by_cases hs : s.runState = .emit
  · obtain ⟨d, -, hd⟩ := (h.emit hs).presented
    exact ⟨_, by simp only [execOutBeat, hs, hd]; rfl⟩
  · exact ⟨s, execOutBeat_waits hs⟩

/-- Settles O44: no event but a beat can stop, and the invariant gives each beat its next state. -/
theorem everyEventCompletesFromTheInvariant : Obligations.EveryEventCompletesFromTheInvariant := by
  intro i s h
  cases i with
  | inBeat d last => exact h.execInBeat_next d last
  | outBeat => exact h.execOutBeat_next
  | _ => exact ⟨_, rfl⟩

end Sys2Proof.Machine
end

section
/-! SUPPORT. The rising edge: the handshake flags as run states, the causes of a refusal, and the statements about an edge
that carries one transaction, none, or a forbidden one. -/

namespace Sys2Proof

/-- The two low bits of an offset are its rest by 4 (R57). -/
theorem aligned_eq_false_iff (addr : Offset) : aligned addr = false ↔ addr.toNat % 4 ≠ 0 := by
  revert addr
  decide

theorem decode_regRead_misaligned (addr : Offset) :
    decode (.regRead addr) = .error .misalignedOffset ↔ addr.toNat % 4 ≠ 0 := by
  rw [← aligned_eq_false_iff]
  simp [decode]

theorem decode_regWrite_misaligned (addr : Offset) (data : Word) :
    decode (.regWrite addr data) = .error .misalignedOffset ↔ addr.toNat % 4 ≠ 0 := by
  rw [← aligned_eq_false_iff]
  simp [decode]

end Sys2Proof

namespace Sys2Proof.Machine

theorem State.inReady_iff (s : State) : s.inReady = true ↔ s.runState = .acqA ∨ s.runState = .acqB := by
  cases h : s.runState <;> simp [State.inReady, h]

/-- A changed offer: the edge offers a byte while another one waits (R48). -/
theorem offerChanged_iff (p : Pins) (s : State) :
    offerChanged p s = true ↔ p.inValid = true ∧ ∃ b, s.waiting = some b ∧ b ≠ ⟨p.inData, p.inLast⟩ := by
  cases hw : s.waiting <;> cases hv : p.inValid <;> simp [offerChanged, offered, hw, hv]

/-- The events of an edge: those of its strobes, and one beat at most (R49, R62). -/
theorem mem_cycleTransactions {p : Pins} {s : State} {t : Transaction} (h : t ∈ cycleTransactions p s) :
    (p.regRe = true ∧ t = .regRead p.regAddr) ∨ t = .outBeat ∨ (∃ v, t = .inBeat v) ∨
      (p.regWe = true ∧ t = .regWrite p.regAddr p.regWdata) := by
  simp only [cycleTransactions, List.mem_append] at h
  rcases h with (h | h) | h
  · unfold readTransactions at h
    split at h <;> simp_all
  · unfold streamTransactions at h
    split_ifs at h <;> simp_all
  · unfold writeTransactions at h
    split at h <;> simp_all

/-- A refused event is one that does not decode, since no meaning refuses (R57). -/
theorem runTransaction_refused {t : Transaction} {s : State} {r : Refusal} (h : runTransaction t s = .refused r) :
    r = .misalignedAccess ∧ decode t = .error .misalignedOffset := by
  rcases runTransaction_cases t s with ⟨i, -, hi⟩ | ⟨hd, hi⟩
  · exact absurd (hi ▸ h) (exec_ne_refused i s r)
  · rw [hi] at h
    cases h
    exact ⟨rfl, hd⟩

/-- Refused events hold one that does not decode. -/
theorem runTransactions_refused {r : Refusal} : ∀ {ts : List Transaction} {s : State},
    runTransactions ts s = .refused r → r = .misalignedAccess ∧ ∃ t ∈ ts, decode t = .error .misalignedOffset
  | [], _, h => by cases h
  | t :: rest, s, h => by
    simp only [runTransactions] at h
    split at h
    · obtain ⟨hr, u, hu, hd⟩ := runTransactions_refused h
      exact ⟨hr, u, List.mem_cons_of_mem t hu, hd⟩
    · cases h
    · next r' hr' =>
      cases h
      obtain ⟨hr, hd⟩ := runTransaction_refused hr'
      exact ⟨hr, t, List.mem_cons_self, hd⟩

/-- An edge's events are refused only for the misaligned access of a strobe (R57). -/
theorem cycleTransactions_refused {p : Pins} {s m : State} {r : Refusal}
    (h : runTransactions (cycleTransactions p s) m = .refused r) :
    r = .misalignedAccess ∧ (p.regWe = true ∨ p.regRe = true) ∧ p.regAddr.toNat % 4 ≠ 0 := by
  obtain ⟨hr, t, ht, hd⟩ := runTransactions_refused h
  rcases mem_cycleTransactions ht with ⟨hre, rfl⟩ | rfl | ⟨v, rfl⟩ | ⟨hwe, rfl⟩
  · exact ⟨hr, .inr hre, (decode_regRead_misaligned _).1 hd⟩
  · cases hd
  · cases hd
  · exact ⟨hr, .inl hwe, (decode_regWrite_misaligned _ _).1 hd⟩

/-- Settles O49: the branches of an edge, of which the events' own refuses only what does not decode. -/
theorem onlyForbiddenEdgesAreRefused : Obligations.OnlyForbiddenEdgesAreRefused := by
  intro s r h
  unfold step at h
  split at h
  · cases h
  · next p rest hp =>
    unfold runCycle at h
    split at h
    · exact absurd h (exec_ne_refused .reset _ r)
    · next hrst =>
      refine ⟨p, rest, hp, by simpa using hrst, ?_⟩
      split at h
      · next hboth =>
        cases h
        exact .inl ⟨rfl, by simpa using hboth⟩
      · split at h
        · next hchg =>
          cases h
          exact .inr (.inl ⟨rfl, (offerChanged_iff p _).1 hchg⟩)
        · exact .inr (.inr (cycleTransactions_refused h))

/-- What an edge with one transaction latches: its byte waits where the block is not acquiring (R48). -/
theorem latchPorts_pins (t : Transaction) (s : State) :
    latchPorts t.pins s = { s with
      readResp := none, freeCount := s.freeCount + 1
      waiting := if t.pins.inValid = true ∧ s.runState ≠ .acqA ∧ s.runState ≠ .acqB
        then some ⟨t.pins.inData, t.pins.inLast⟩ else none } := by
  have hwait : (latchPorts t.pins s).waiting = if t.pins.inValid = true ∧ s.runState ≠ .acqA ∧ s.runState ≠ .acqB
      then some ⟨t.pins.inData, t.pins.inLast⟩ else none := by
    have hrst : t.pins.inValid = true → t.pins.rst = false := by cases t <;> simp [Transaction.pins, quietPins]
    have hready := s.inReady_iff
    rw [(latchPorts_writes t.pins s).2.1, offered]
    grind
  rw [← hwait]
  rfl

/-- Settles O45, by the edge that carries one transaction and what it latches. -/
theorem stepRunsTheDecodedInstruction : Obligations.StepRunsTheDecodedInstruction := by
  intro s t i rest hdec hpend hheld
  have hkept : offerChanged t.pins { s with pending := rest } = false := by
    rw [← Bool.not_eq_true, offerChanged_iff]
    rintro ⟨hv, b, hb, hne⟩
    rcases hheld hv with hw | hw <;> simp_all
  simp only [step, hpend]
  rw [runCycle_pins t _ hkept, runTransaction_of_decode hdec, latchPorts_pins]

/-- Settles O50: such an edge has no event, or an output beat that waits. -/
theorem quietEdgesChangeNothing : Obligations.QuietEdgesChangeNothing := by
  refine ⟨fun s hp => by simp [step, hp], fun s p rest hp hrst hwe hre hin hout => ?_⟩
  have hlatch : latchPorts p { s with pending := rest } =
      { s with pending := rest, readResp := none, waiting := none, freeCount := s.freeCount + 1 } := by
    simp [latchPorts, offered, hin]
  have hkept : offerChanged p { s with pending := rest } = false := by
    simp [offerChanged_iff, ← Bool.not_eq_true, hin]
  have hevents : cycleTransactions p { s with pending := rest } = if p.outReady then [.outBeat] else [] := by
    simp [cycleTransactions, readTransactions, streamTransactions, writeTransactions, hwe, hre, hin]
  simp only [step, hp, runCycle, hrst, hwe, hkept, hevents, hlatch, Bool.false_and, Bool.false_eq_true, if_false]
  cases hr : p.outReady with
  | false => rfl
  | true =>
    rw [if_pos rfl, runTransactions_single, runTransaction_of_decode (i := .outBeat) rfl]
    exact execOutBeat_waits (hout hr)

end Sys2Proof.Machine
end

section
/-! SUPPORT. The invariant along every event, every list of events and every rising edge: each answers a safe outcome, so no
step leaves the invariant and none faults. -/

namespace Sys2Proof.Machine

/-- A SET command in IDLE or DONE keeps the invariant, which there says nothing of the configuration (R78). -/
theorem Inv.configure {s : State} (h : Inv s) (hs : s.runState = .idle ∨ s.runState = .done) (bpp imgType : Byte)
    (wid hgt : Half) : Inv { s with cfgBpp := bpp, cfgType := imgType, cfgWidth := wid, cfgHeight := hgt } where
  rowA := h.rowA
  rowB := h.rowB
  rowOut := h.rowOut
  code := h.code
  lanes := h.lanes
  idle := h.idle
  acqA := by rcases hs with hs | hs <;> simp [hs]
  acqB := by rcases hs with hs | hs <;> simp [hs]
  emit := by rcases hs with hs | hs <;> simp [hs]
  done := h.done

/-- Every event keeps the invariant (R45, R46). -/
theorem Inv.of_exec {i : Instr} {s t : State} (h : Inv s) (he : exec i s = .next t) : Inv t := by
  cases exec_cases he with
  | unchanged => exact h
  | answered v => exact h.ports _ _ _ _ _
  | configured bpp imgType wid hgt hs _ => exact h.configure hs bpp imgType wid hgt
  | started _ hs => exact h.dispatch hs
  | aborted _ => exact h.abandon
  | resetted _ => exact Inv.resetBlock s
  | rejected _ _ => exact h.raise (by simp)
  | truncated d _ _ _ => exact h.raise (by simp)
  | storedA d last t _ _ hs hstore =>
    obtain ⟨u, hu, hinv⟩ := h.storeA hs d
    rw [hstore] at hu
    cases hu
    exact hinv
  | storedB d last t _ _ hs hstore =>
    obtain ⟨u, hu, hinv⟩ := h.storeB hs d
    rw [hstore] at hu
    cases hu
    exact hinv
  | taken d _ hs _ => exact (h.ports _ _ _ _ _).advance hs

/-- Events one after the other have a safe outcome. -/
theorem Inv.runTransactions_safe (ts : List Transaction) :
    ∀ {s : State}, Inv s → SafeOutcome (runTransactions ts s) := by
  induction ts with
  | nil => exact fun h => h
  | cons t rest ih =>
    intro s h
    simp only [runTransactions]
    rcases runTransaction_cases t s with ⟨i, -, hrun⟩ | ⟨-, hrun⟩
    · obtain ⟨u, hu⟩ := everyEventCompletesFromTheInvariant i s h
      rw [hrun, hu]
      exact ih (h.of_exec hu)
    · rw [hrun]
      trivial

/-- What an edge latches is the host's side of the ports, of which the invariant says nothing. -/
theorem Inv.latch {s : State} (h : Inv s) (p : Pins) (rest : List Pins) :
    Inv (latchPorts p { s with pending := rest }) :=
  h.ports _ _ _ _ _

/-- A step from the invariant keeps it or refuses the host's edge; it never faults (R46). -/
theorem Inv.step_safe {s : State} (h : Inv s) : SafeOutcome (step s) := by
  unfold step
  split
  · exact h
  · next p rest _ =>
    unfold runCycle
    split
    · exact Inv.resetBlock _
    · split
      · trivial
      · split
        · trivial
        · exact Inv.runTransactions_safe _ (h.latch p rest)

/-- Settles O53: a step's outcome is safe. -/
theorem stepKeepsTheInvariant : Obligations.StepKeepsTheInvariant := by
  intro s t h hstep
  have hsafe := h.step_safe
  rwa [hstep] at hsafe

/-- Settles O54: a fault is no safe outcome. -/
theorem noStepFaultsFromTheInvariant : Obligations.NoStepFaultsFromTheInvariant := by
  intro s f h hstep
  have hsafe := h.step_safe
  rwa [hstep] at hsafe

/-- Settles O52: the state after reset is what a Reset leaves. -/
theorem resetSatisfiesTheInvariant : Obligations.ResetSatisfiesTheInvariant :=
  Inv.resetBlock State.reset

/-- Settles O59: the new height is not the rows counted, and `Inv` says nothing of it in DONE. -/
theorem setHeightInDoneBreaksRowCountEquality : Obligations.SetHeightInDoneBreaksRowCountEquality := by
  intro s hgt h hs hne
  refine ⟨{ s with cfgHeight := hgt }, by simp [exec, execSetHeight, whenStopped, hs],
    h.configure (.inr hs) s.cfgBpp s.cfgType s.cfgWidth hgt, hs, fun heq => hne ?_⟩
  exact (BitVec.eq_of_toNat_eq heq).symm

end Sys2Proof.Machine
end

section
/-! SUPPORT. The two stream beats in the states that accept them: what a stored and padded row holds, which byte EMIT presents,
and the statements about one beat. -/

namespace Sys2Proof.Machine

section Storing

variable {s t : State} {d : Byte} {last : Bool}

/-- An accepted input byte in ACQ_A is stored in ROW_A (R100). -/
theorem exec_inBeat_acqA (hs : s.runState = .acqA) (htr : truncates last s = false) (hstore : storeInA d s = .ok t) :
    exec (.inBeat d last) s = .next t := by
  simp [exec, execInBeat, hs, htr, hstore, outcomeOf]

/-- An accepted input byte in ACQ_B is stored in ROW_B (R100). -/
theorem exec_inBeat_acqB (hs : s.runState = .acqB) (htr : truncates last s = false) (hstore : storeInB d s = .ok t) :
    exec (.inBeat d last) s = .next t := by
  simp [exec, execInBeat, hs, htr, hstore, outcomeOf]

/-- Only a marked byte can truncate the frame (R103). -/
@[simp] theorem truncates_false (s : State) : truncates false s = false := rfl

theorem State.atRowEnd_iff (s : State) : s.atRowEnd = true ↔ s.inPos.toNat + 1 = s.rowBytes := by
  simp [State.atRowEnd]

theorem State.atOutRowEnd_iff (s : State) : s.atOutRowEnd = true ↔ s.outPos.toNat + 1 = s.outRowBytes := by
  simp [State.atOutRowEnd]

/-- A row buffer after its row's last byte and the padding: the byte at its slot, the padding slot a copy of the last pixel,
and every byte outside the stored row kept (R100, R101). -/
theorem BytesWritten.read_padded (hf : FormatOk s) (hend : s.inPos.toNat + 1 = s.rowBytes) {m a : Memory}
    (hm : BytesWritten m s.lanes s.inPos.toNat)
    (hpad : padRow s.rowPixels s.width s.lanes (m.write (nextSlot s) d) = .ok a) :
    (∀ j < s.width, ∀ c < s.lanes,
      a.read (slotAddr j c) = if slotAddr j c = nextSlot s then some d else m.read (slotAddr j c)) ∧
    (s.width % 2 = 1 → ∀ c < s.lanes, a.read (slotAddr s.width c) = a.read (slotAddr (s.width - 1) c)) ∧
    (∀ x, ¬ (x / 4 < s.rowLen ∧ x % 4 < s.lanes) → a.read x = m.read x) := by
  have hlanes := hf.lanes_bounds
  have hslot := slot_bounds (by unfold State.rowBytes at hend; omega : s.inPos.toNat < s.width * s.lanes) hlanes.1
  have hlen : s.width ≤ s.rowLen ∧ (s.width % 2 = 1 → s.width < s.rowLen) := by
    unfold State.rowLen State.widthOut
    omega
  obtain ⟨a', hpad', ⟨-, hcopy⟩, hread, -⟩ := padRow_done hf (hm.complete hf (s.atRowEnd_iff.2 hend) d)
  rw [hpad] at hpad'
  cases hpad'
  refine ⟨fun j hj c hc => ?_, hcopy, fun x hx => ?_⟩
  · have hnopad : ¬ (s.width % 2 = 1 ∧ slotAddr j c / 4 = s.width ∧ slotAddr j c % 4 < s.lanes) := by
      rw [slotAddr_div (by omega)]
      omega
    rw [hread, if_neg hnopad, Memory.read_write]
  · have hne : x ≠ nextSlot s := by
      rintro rfl
      refine hx ⟨?_, ?_⟩
      · rw [nextSlot, slotAddr_div (by omega)]
        omega
      · rw [nextSlot, slotAddr_mod (by omega)]
        exact hslot.2
    rw [hread, if_neg (by omega), Memory.read_write_other _ _ hne]

end Storing

/-- Settles O23: a byte before the row's end is one write and one step of IN_POS. -/
theorem inBeatStoresItsByte : Obligations.InBeatStoresItsByte := by
  intro s d h hmid
  have hend : s.atRowEnd = false := by rw [← Bool.not_eq_true, s.atRowEnd_iff]; omega
  refine ⟨fun hs => ?_, fun hs => ?_⟩
  · obtain ⟨hf, -, -, hpos, -⟩ := h.acqA hs
    exact ⟨_, _, exec_inBeat_acqA hs rfl (storeInA_mid hf hpos hend d), inPos_succ hf hmid,
      fun x => Memory.read_write _ _ _ _⟩
  · obtain ⟨hf, -, -, hpos, -⟩ := h.acqB hs
    exact ⟨_, _, exec_inBeat_acqB hs rfl (storeInB_mid hf hpos hend d), inPos_succ hf hmid,
      fun x => Memory.read_write _ _ _ _⟩

/-- Settles O24: RowComplete of a row that is not self-paired, and what its padded row holds. -/
theorem firstRowOfPairEntersAcqB : Obligations.FirstRowOfPairEntersAcqB := by
  intro s d h hs hend hself
  obtain ⟨hf, -, hrows, hpos, -, hbytes⟩ := h.acqA hs
  obtain ⟨a, hpad, hstore, -, -⟩ := storeInA_pair hf hpos (s.atRowEnd_iff.2 hend) hself hbytes d
  have hheight := s.height_lt
  exact ⟨a, _, exec_inBeat_acqA hs rfl hstore, half_succ (by omega), hbytes.read_padded hf hend hpad⟩

/-- The byte the port presents in EMIT is the one ROW_OUT holds at OUT_POS (R34). -/
theorem portsOut_outData {s : State} {d : Byte} (hs : s.runState = .emit)
    (hd : s.rowOut.read (slotAddr (s.outPos.toNat / s.lanes) (s.outPos.toNat % s.lanes)) = some d) :
    (portsOut false s).outData = d := by
  simp [portsOut, State.outValid, hs, pixelOf, laneOf, hd]

/-- Settles O31: the presented byte's place is inside ROW_OUT, whose bytes are averages of the rows held. -/
theorem presentedByteIsTheBlockAverage : Obligations.PresentedByteIsTheBlockAverage := by
  intro s h hs
  have hE := h.emit hs
  obtain ⟨hf, -, hpos, -⟩ := hE
  obtain ⟨hk, hc⟩ := slot_bounds hpos hf.lanes_bounds.1
  obtain ⟨p, q, r, t, hp, hq, hr, ht, ho⟩ := (h.emit hs).samples hk hc
  exact ⟨p, q, r, t, hp, hq, hr, ht, by rw [portsOut_outData hs ho, avg4_toNat]⟩

/-- An output beat in EMIT takes the presented byte (R114). -/
theorem exec_outBeat_emit {s : State} {d : Byte} (hs : s.runState = .emit)
    (hd : readSlot s.outPixels s.rowOut (pixelOf s.outPos.toNat s.lanes) (laneOf s.outPos.toNat s.lanes) = .ok d) :
    exec .outBeat s = .next (advanceOut { s with outStream := s.outStream ++ [⟨d, s.outLast⟩] }) := by
  simp only [exec, execOutBeat, hs, hd]

/-- LAST marks the last byte of the last output row (R114). -/
theorem State.outLast_iff (s : State) :
    s.outLast = true ↔ s.outPos.toNat + 1 = s.outRowBytes ∧ s.outRows.toNat + 1 = s.heightOut := by
  simp [State.outLast, State.atOutRowEnd, State.onLastOutRow]

/-- An EMIT state's OUT_ROWS does not wrap (R29). -/
theorem EmitOk.outRows_succ {s : State} (h : EmitOk s) : (s.outRows + 1#16).toNat = s.outRows.toNat + 1 := by
  obtain ⟨-, hlt, -⟩ := h
  have hheight := s.height_lt
  exact half_succ (by unfold State.heightOut at hlt; omega)

/-- Settles O32: the three ways to advance, each with the LAST it delivers. -/
theorem outBeatDeliversAndAdvances : Obligations.OutBeatDeliversAndAdvances := by
  intro s h hs
  have hE := h.emit hs
  obtain ⟨d, hd, hread⟩ := hE.presented
  have hrows := hE.outRows_succ
  obtain ⟨hf, -, hpos, -⟩ := hE
  refine ⟨d, hd, fun hmid => ?_, fun hend hnot => ?_, fun hend hlast => ?_⟩
  · have hout : s.outLast = false := by rw [← Bool.not_eq_true, s.outLast_iff]; tauto
    have hrow : s.atOutRowEnd = false := by rwa [← Bool.not_eq_true, s.atOutRowEnd_iff]
    refine ⟨_, outPos_succ hf (by omega), ?_⟩
    rw [exec_outBeat_emit hs hread, hout]
    exact congrArg _ (advanceOut_mid hrow)
  · have hout : s.outLast = false := by rw [← Bool.not_eq_true, s.outLast_iff]; tauto
    refine ⟨_, hrows, ?_⟩
    rw [exec_outBeat_emit hs hread, hout]
    exact congrArg _ (advanceOut_row (s.atOutRowEnd_iff.2 hend) (hrows.trans_ne hnot))
  · have hout : s.outLast = true := s.outLast_iff.2 ⟨hend, hlast⟩
    refine ⟨_, hrows, ?_⟩
    rw [exec_outBeat_emit hs hread, hout]
    exact congrArg _ (advanceOut_frame (s.atOutRowEnd_iff.2 hend) (hrows.trans hlast))

/-- An input beat outside ACQ_A and ACQ_B waits (R100). -/
theorem execInBeat_waits {s : State} (ha : s.runState ≠ .acqA) (hb : s.runState ≠ .acqB) (d : Byte) (last : Bool) :
    execInBeat d last s = .next s := by
  unfold execInBeat
  split
  · exact absurd ‹_› ha
  · exact absurd ‹_› hb
  all_goals rfl

/-- Settles O21: each beat outside its states. -/
theorem beatsWaitWhereNotEnabled : Obligations.BeatsWaitWhereNotEnabled :=
  fun _ d last => ⟨fun ha hb => execInBeat_waits ha hb d last, execOutBeat_waits⟩

theorem State.outValid_iff (s : State) : s.outValid = true ↔ s.runState = .emit := by
  cases hs : s.runState <;> simp [State.outValid, hs]

/-- Settles O43: each output as its flag of the state, of which no two run states set both. -/
theorem handshakesFollowTheState : Obligations.HandshakesFollowTheState := by
  intro s
  refine ⟨s.inReady_iff, s.outValid_iff, fun d => portsOut_outData, ?_, fun rst => ?_, rfl, rfl⟩
  · show (s.outValid && s.outLast) = true ↔ _
    rw [Bool.and_eq_true, s.outValid_iff, s.outLast_iff]
  · simp only [portsOut, Bool.and_eq_true, s.inReady_iff, s.outValid_iff]
    rintro ⟨⟨-, ha⟩, -, he⟩
    simp [he] at ha

end Sys2Proof.Machine
end

section
/-! SUPPORT. Which event writes which register: the configuration, N, ERR_CODE, the row counters and the bytes taken. Each rule
goes by the kinds of change an event can make, where the beats that move a byte are one kind. -/

namespace Sys2Proof.Machine

/-- The fields that taking an output byte can change, and the states it can enter (R114). -/
theorem advanceOut_take_frame {s : State} (hs : s.runState = .emit) (out : List Beat) :
    ∃ run self rows ipos opos,
      advanceOut { s with outStream := out } = { s with
        runState := run, selfPair := self, outRows := rows, inPos := ipos, outPos := opos, outStream := out } ∧
      (run = .emit ∨ run = .acqA ∨ run = .done) := by
  cases hend : s.atOutRowEnd with
  | false => exact ⟨_, _, _, _, _, advanceOut_mid hend, .inl hs⟩
  | true =>
    by_cases hlast : (s.outRows + 1#16).toNat = s.heightOut
    · exact ⟨_, _, _, _, _, advanceOut_frame hend hlast, .inr (.inr rfl)⟩
    · exact ⟨_, _, _, _, _, advanceOut_row hend hlast, .inr (.inl rfl)⟩

/-- What a beat that moves a byte leaves alone (R100, R114), and what it delivers: nothing, or the one byte that OUT_BEAT
takes. -/
structure ByteMoved (i : Instr) (s t : State) : Prop where
  cfgBpp    : t.cfgBpp = s.cfgBpp
  cfgType   : t.cfgType = s.cfgType
  cfgWidth  : t.cfgWidth = s.cfgWidth
  cfgHeight : t.cfgHeight = s.cfgHeight
  errCode   : t.errCode = s.errCode
  n         : t.n = s.n
  maxWidth  : t.maxWidth = s.maxWidth
  delivers  : (t.outStream = s.outStream ∧ t.runState ≠ .done) ∨
    (i = .outBeat ∧ s.runState = .emit ∧
      ∃ beat, t.outStream = s.outStream ++ [beat] ∧ t = advanceOut { s with outStream := t.outStream })

theorem ByteMoved.of_storeInA {i : Instr} {d : Byte} {s t : State} (hs : s.runState = .acqA)
    (hstore : storeInA d s = .ok t) : ByteMoved i s t := by
  obtain ⟨_, _, _, _, _, _, rfl, hrun⟩ := storeInA_frame hstore hs
  exact ⟨rfl, rfl, rfl, rfl, rfl, rfl, rfl, .inl ⟨rfl, by rcases hrun with rfl | rfl | rfl <;> simp⟩⟩

theorem ByteMoved.of_storeInB {i : Instr} {d : Byte} {s t : State} (hs : s.runState = .acqB)
    (hstore : storeInB d s = .ok t) : ByteMoved i s t := by
  obtain ⟨_, _, _, _, _, _, rfl, hrun⟩ := storeInB_frame hstore hs
  exact ⟨rfl, rfl, rfl, rfl, rfl, rfl, rfl, .inl ⟨rfl, by rcases hrun with rfl | rfl <;> simp⟩⟩

theorem ByteMoved.of_take {s : State} (hs : s.runState = .emit) (beat : Beat) :
    ByteMoved .outBeat s (advanceOut { s with outStream := s.outStream ++ [beat] }) := by
  obtain ⟨_, _, _, _, _, he, -⟩ := advanceOut_take_frame hs (s.outStream ++ [beat])
  have hout : (advanceOut { s with outStream := s.outStream ++ [beat] }).outStream = s.outStream ++ [beat] := by rw [he]
  refine ⟨?_, ?_, ?_, ?_, ?_, ?_, ?_, .inr ⟨rfl, hs, beat, hout, by rw [hout]⟩⟩ <;> rw [he]

/-- The kinds of change an event i can make of s. -/
inductive Change (i : Instr) (s : State) : State → Prop
  /-- At most a read answer is new. -/
  | answered (resp : Option Word) : Change i s { s with readResp := resp }
  /-- A SET command taken in IDLE or DONE, with the fields it does not set as they were. -/
  | configured (bpp imgType : Byte) (wid hgt : Half) : (s.runState = .idle ∨ s.runState = .done) →
      (i = .setFormat bpp imgType ∧ wid = s.cfgWidth ∧ hgt = s.cfgHeight) ∨
        (i = .setWidth wid ∧ bpp = s.cfgBpp ∧ imgType = s.cfgType ∧ hgt = s.cfgHeight) ∨
        (i = .setHeight hgt ∧ bpp = s.cfgBpp ∧ imgType = s.cfgType ∧ wid = s.cfgWidth) →
      Change i s { s with cfgBpp := bpp, cfgType := imgType, cfgWidth := wid, cfgHeight := hgt }
  | started : i = .start → (s.runState = .idle ∨ s.runState = .done) → Change i s (dispatchFrame s)
  | aborted : i = .abort → Change i s (abandonFrame s)
  | resetted : i = .reset → Change i s (resetBlock s)
  /-- ERROR is entered, by a command or by a truncating beat. -/
  | raised (code : ErrCode) : s.runState ≠ .error → Change i s (raiseError code s)
  | moved {t : State} : ByteMoved i s t → Change i s t

/-- Everything an event that answers a next state can have done, by kind of change. -/
theorem exec_change {i : Instr} {s t : State} (h : exec i s = .next t) : Change i s t := by
  cases exec_cases h with
  | unchanged => exact .answered _
  | answered v => exact .answered _
  | configured bpp imgType wid hgt hs hset => exact .configured bpp imgType wid hgt hs hset
  | started hi hs => exact .started hi hs
  | aborted hi => exact .aborted hi
  | resetted hi => exact .resetted hi
  | rejected hs _ => exact .raised _ hs
  | truncated _ _ hs _ => exact .raised _ (by rcases hs with hs | hs <;> simp [hs])
  | storedA _ _ _ _ _ hs hstore => exact .moved (.of_storeInA hs hstore)
  | storedB _ _ _ _ _ hs hstore => exact .moved (.of_storeInB hs hstore)
  | taken d hi hs _ => exact hi ▸ .moved (.of_take hs _)

/-- Settles O38: reset apart, only a SET command's change is one of the configuration. -/
theorem onlySetCommandsWriteTheConfiguration : Obligations.OnlySetCommandsWriteTheConfiguration := by
  intro i s t h
  by_cases hreset : i = .reset
  · subst hreset
    cases h
    exact .inl ⟨rfl, rfl, rfl, rfl, rfl⟩
  refine .inr ⟨hreset, ?_⟩
  cases exec_change h with
  | answered _ | aborted _ | raised _ _ => exact ⟨.inl ⟨rfl, rfl⟩, .inl rfl, .inl rfl⟩
  | configured bpp imgType wid hgt _ hset =>
    rcases hset with ⟨rfl, rfl, rfl⟩ | ⟨rfl, rfl, rfl, rfl⟩ | ⟨rfl, rfl, rfl, rfl⟩
    · exact ⟨.inr ⟨_, _, rfl⟩, .inl rfl, .inl rfl⟩
    · exact ⟨.inl ⟨rfl, rfl⟩, .inr ⟨_, rfl⟩, .inl rfl⟩
    · exact ⟨.inl ⟨rfl, rfl⟩, .inl rfl, .inr ⟨_, rfl⟩⟩
  | started _ _ =>
    rcases dispatchFrame_cases s with ⟨-, he⟩ | ⟨_, -, he⟩ <;> rw [he] <;> exact ⟨.inl ⟨rfl, rfl⟩, .inl rfl, .inl rfl⟩
  | resetted hi => exact absurd hi hreset
  | moved hm => exact ⟨.inl ⟨hm.cfgBpp, hm.cfgType⟩, .inl hm.cfgWidth, .inl hm.cfgHeight⟩

/-- Settles O39: an event that neither enters ERROR nor clears it leaves ERR_CODE, and the invariant ties 0 to the states
outside ERROR. -/
theorem onlyErrorEntryWritesTheErrorCode : Obligations.OnlyErrorEntryWritesTheErrorCode := by
  intro i s t hinv h
  refine ⟨?_, (hinv.of_exec h).code.2⟩
  cases exec_change h with
  | answered _ | configured _ _ _ _ _ _ => exact .inl rfl
  | started _ hs =>
    rcases dispatchFrame_cases s with ⟨-, he⟩ | ⟨_, -, he⟩ <;> rw [he]
    · exact .inl rfl
    · exact .inr (.inl ⟨by rcases hs with hs | hs <;> simp [hs], rfl⟩)
  | aborted hi => exact .inr (.inr ⟨.inl hi, rfl⟩)
  | resetted hi => exact .inr (.inr ⟨.inr hi, rfl⟩)
  | raised _ hs => exact .inr (.inl ⟨hs, rfl⟩)
  | moved hm => exact .inl hm.errCode

/-- A START that the checks let pass leaves a dispatched format (R118, R119). -/
theorem dispatchFrame_formatOk {s : State} (hd : dispatchError (clearRun s) = none) : FormatOk (dispatchFrame s) := by
  obtain ⟨hreq, hwidth, hheight, hfit⟩ := dispatchError_none hd
  simp only [dispatchFrame, hd]
  exact ⟨hreq, rfl, hwidth, hheight, hfit⟩

/-- START in IDLE or DONE is Dispatch() (R83, R120). -/
theorem exec_start_stopped {s : State} (hs : s.runState = .idle ∨ s.runState = .done) :
    exec .start s = .next (dispatchFrame s) := by
  rcases hs with hs | hs <;> simp [exec, execStart, whenStopped, hs]

/-- No event but ABORT, reset and an accepted START writes N (R27). -/
theorem exec_keeps_n {i : Instr} {s t : State} (h : exec i s = .next t) (habort : i ≠ .abort) (hreset : i ≠ .reset)
    (hstart : ¬ (i = .start ∧ (s.runState = .idle ∨ s.runState = .done))) : t.n = s.n := by
  cases exec_change h with
  | answered _ | configured _ _ _ _ _ _ | raised _ _ => rfl
  | started hi hs => exact absurd ⟨hi, hs⟩ hstart
  | aborted hi => exact absurd hi habort
  | resetted hi => exact absurd hi hreset
  | moved hm => exact hm.n

/-- Settles O40: the values the three writers of N give it, and that no other event writes it. -/
theorem onlyStartAbortAndResetWriteN : Obligations.OnlyStartAbortAndResetWriteN := by
  intro i s t h
  refine ⟨?_, ?_, exec_keeps_n h⟩
  · rintro (rfl | rfl) <;> cases h <;> rfl
  · rintro rfl hs
    rw [exec_start_stopped hs] at h
    cases h
    rcases dispatchFrame_cases s with ⟨hd, he⟩ | ⟨_, -, he⟩
    · exact .inr ⟨by rw [he], (dispatchFrame_formatOk hd).lanes_bounds⟩
    · exact .inl (by simp [he])

/-- A command that a run forbids ends the run (R78). -/
theorem whenStopped_busy {s : State} (f : State → State) (hs : busyFlag s.runState = true) :
    whenStopped f s = raiseError .illegalCommand s := by
  cases hrun : s.runState <;> simp_all [busyFlag, whenStopped]

/-- The SET commands end a run, so an event that stays in one is none of them (R78). -/
theorem not_busy_of_set {i : Instr} {s t : State} (hs : busyFlag s.runState = true) (h : exec i s = .next t)
    (hset : (∃ bpp imgType, i = .setFormat bpp imgType) ∨ (∃ w, i = .setWidth w) ∨ ∃ v, i = .setHeight v) :
    busyFlag t.runState = false := by
  rcases hset with ⟨_, _, rfl⟩ | ⟨_, rfl⟩ | ⟨_, rfl⟩ <;>
    simp only [exec, execSetFormat, execSetWidth, execSetHeight, whenStopped_busy _ hs] at h <;> cases h <;> rfl

/-- Settles O41: the writers of the configuration and of N leave the run states. -/
theorem runKeepsItsConfiguration : Obligations.RunKeepsItsConfiguration := by
  intro i s t hs h ht
  have hset : ¬ ((∃ bpp imgType, i = .setFormat bpp imgType) ∨ (∃ w, i = .setWidth w) ∨ ∃ v, i = .setHeight v) :=
    fun hi => by simp [not_busy_of_set hs h hi] at ht
  obtain ⟨hnoFormat, hnoWidth, hnoHeight⟩ := by simpa only [not_or] using hset
  have habort : i ≠ .abort := by
    rintro rfl
    cases h
    cases ht
  rcases onlySetCommandsWriteTheConfiguration i s t h with ⟨rfl, -⟩ | ⟨hreset, hformat, hwidth, hheight⟩
  · cases h
    cases ht
  · have hn : t.n = s.n := by
      refine exec_keeps_n h habort hreset ?_
      rintro ⟨-, hstop | hstop⟩ <;> simp [hstop, busyFlag] at hs
    obtain ⟨hbpp, htype⟩ := hformat.resolve_right hnoFormat
    exact ⟨hwidth.resolve_right hnoWidth, hheight.resolve_right hnoHeight, hn, hbpp, htype⟩

/-- Taking the frame's last byte enters DONE with every row counted (R45, R114). -/
theorem Inv.advanceOut_done {s : State} (h : Inv s) (hs : s.runState = .emit) (hdone : (advanceOut s).runState = .done) :
    RowsCounted (advanceOut s) := by
  have hE := h.emit hs
  have hrows := hE.outRows_succ
  obtain ⟨-, hin⟩ := hE.counted
  obtain ⟨hf, -⟩ := hE
  cases hend : s.atOutRowEnd with
  | false => simp [advanceOut_mid hend, hs] at hdone
  | true =>
    by_cases hlast : (s.outRows + 1#16).toNat = s.heightOut
    · rw [advanceOut_frame hend hlast]
      refine fun _ => ⟨?_, hlast, hf.lanes_bounds⟩
      show s.inRows.toNat = s.height
      unfold State.heightOut at hlast
      omega
    · simp [advanceOut_row hend hlast] at hdone

/-- An event that ends in DONE started there and left the counters and N, or is the OUT_BEAT of the frame's last byte. -/
theorem exec_done {i : Instr} {s t : State} (h : exec i s = .next t) (ht : t.runState = .done) :
    (s.runState = .done ∧ t.inRows = s.inRows ∧ t.outRows = s.outRows ∧ t.n = s.n) ∨
      (i = .outBeat ∧ s.runState = .emit ∧ ∃ out, t = advanceOut { s with outStream := out }) := by
  cases exec_change h with
  | answered _ | configured _ _ _ _ _ _ => exact .inl ⟨ht, rfl, rfl, rfl⟩
  | started _ _ => rcases dispatchFrame_cases s with ⟨-, he⟩ | ⟨_, -, he⟩ <;> simp [he] at ht
  | aborted _ | resetted _ | raised _ _ => simp at ht
  | moved hm =>
    rcases hm.delivers with ⟨-, hne⟩ | ⟨hi, hs, _, -, he⟩
    · exact absurd ht hne
    · exact .inr ⟨hi, hs, _, he⟩

/-- Settles O33: DONE is entered by the frame's last byte, and in DONE only SET_HEIGHT touches what the clause compares. -/
theorem doneIsEnteredWithEveryRowCounted : Obligations.DoneIsEnteredWithEveryRowCounted := by
  refine ⟨fun s t i hinv hs h ht => ?_, fun hreset => ?_, fun s t i hinv hrows hi h ht => ?_⟩
  · rcases exec_done h ht with ⟨hdone, -⟩ | ⟨hi, hemit, out, rfl⟩
    · exact absurd hdone hs
    · exact ⟨hi, (hinv.ports _ _ out _ _).advanceOut_done hemit ht ht⟩
  · cases hreset
  · rcases exec_done h ht with ⟨hdone, hin, hout, hn⟩ | ⟨-, hemit, out, rfl⟩
    · have hheight : t.cfgHeight = s.cfgHeight := by
        rcases onlySetCommandsWriteTheConfiguration i s t h with ⟨rfl, -⟩ | ⟨-, -, -, hheight⟩
        · cases h
          cases ht
        · exact hheight.resolve_right fun ⟨v, hv⟩ => hi hdone v hv
      have hclause := hrows hdone
      simp only [State.heightOut, State.height, State.lanes] at hclause ⊢
      rwa [hin, hout, hn, hheight]
    · exact (hinv.ports _ _ out _ _).advanceOut_done hemit ht ht

end Sys2Proof.Machine
end

section
/-! SUPPORT. The bytes taken along one rising edge (20_memory.md R48, R62): its read and its write take none, and its beat at
most one. -/

namespace Sys2Proof

/-- No command word is an output beat (R71). -/
theorem decodeCommand_ne_outBeat (w : Word) : decodeCommand w ≠ .outBeat := by
  unfold decodeCommand
  repeat' split
  all_goals simp

/-- The event OUT_BEAT has a port of its own (R73, R74). -/
theorem decode_eq_outBeat {t : Transaction} (h : decode t = .ok .outBeat) : t = .outBeat := by
  cases t with
  | outBeat => rfl
  | reset | inBeat _ => simp [decode] at h
  | regRead addr =>
    simp only [decode] at h
    split at h
    · cases hr : regAt addr <;> simp [hr, readInstr] at h
    · cases h
  | regWrite addr data =>
    simp only [decode, writeInstr] at h
    split_ifs at h
    · exact absurd (Except.ok.inj h) (decodeCommand_ne_outBeat data)
    · cases h

end Sys2Proof

namespace Sys2Proof.Machine

/-- An event keeps MAX_WIDTH and the bytes taken, to which OUT_BEAT in EMIT adds one (R42, R114). -/
theorem exec_outStream {i : Instr} {s t : State} (h : exec i s = .next t) :
    t.maxWidth = s.maxWidth ∧ (t.outStream = s.outStream ∨
      (i = .outBeat ∧ s.runState = .emit ∧ ∃ beat, t.outStream = s.outStream ++ [beat])) := by
  cases exec_change h with
  | answered _ | configured _ _ _ _ _ _ | aborted _ | resetted _ | raised _ _ => exact ⟨rfl, .inl rfl⟩
  | started _ _ => rcases dispatchFrame_cases s with ⟨-, he⟩ | ⟨_, -, he⟩ <;> rw [he] <;> exact ⟨rfl, .inl rfl⟩
  | moved hm =>
    refine ⟨hm.maxWidth, ?_⟩
    rcases hm.delivers with ⟨hkept, -⟩ | ⟨hi, hs, beat, htaken, -⟩
    · exact .inl hkept
    · exact .inr ⟨hi, hs, beat, htaken⟩

/-- An event of the host that answers a next state ran as the meaning of what it decodes to. -/
theorem runTransaction_next {e : Transaction} {s t : State} (h : runTransaction e s = .next t) :
    ∃ i, decode e = .ok i ∧ exec i s = .next t := by
  rcases runTransaction_cases e s with ⟨i, hi, hrun⟩ | ⟨-, hrun⟩ <;> rw [hrun] at h
  · exact ⟨i, hi, h⟩
  · cases h

/-- Two lists of events chain through the state between them. -/
theorem runTransactions_append {xs ys : List Transaction} {s t : State} (h : runTransactions (xs ++ ys) s = .next t) :
    ∃ m, runTransactions xs s = .next m ∧ runTransactions ys m = .next t := by
  induction xs generalizing s with
  | nil => exact ⟨s, rfl, h⟩
  | cons x xs ih =>
    obtain ⟨u, hx, hrest⟩ := runTransactions_cons_next.1 h
    obtain ⟨m, hxs, hys⟩ := ih hrest
    exact ⟨m, runTransactions_cons_next.2 ⟨u, hx, hxs⟩, hys⟩

/-- Events without an OUT_BEAT take no byte. -/
theorem runTransactions_keeps_outStream {ts : List Transaction} (hts : .outBeat ∉ ts) {s t : State}
    (h : runTransactions ts s = .next t) : t.outStream = s.outStream := by
  induction ts generalizing s with
  | nil => cases h; rfl
  | cons e ts ih =>
    obtain ⟨hne, hts⟩ := by simpa only [List.mem_cons, not_or] using hts
    obtain ⟨m, he, hrest⟩ := runTransactions_cons_next.1 h
    obtain ⟨i, hi, hexec⟩ := runTransaction_next he
    rw [ih hts hrest]
    refine (exec_outStream hexec).2.resolve_right ?_
    rintro ⟨rfl, -⟩
    exact hne (decode_eq_outBeat hi).symm

/-- No events write MAX_WIDTH (R42). -/
theorem runTransactions_keeps_maxWidth {ts : List Transaction} {s t : State} (h : runTransactions ts s = .next t) :
    t.maxWidth = s.maxWidth :=
  runTransactions_keeps (P := fun u => u.maxWidth = s.maxWidth)
    (fun _ _ _ hu hexec => (exec_outStream hexec).1.trans hu) ts s t rfl h

/-- The register read of an edge changes the read answer alone (R60). -/
theorem readTransactions_next {p : Pins} {s t : State} (h : runTransactions (readTransactions p) s = .next t) :
    ∃ resp, t = { s with readResp := resp } := by
  unfold readTransactions at h
  split at h
  · rw [runTransactions_single] at h
    obtain ⟨i, hi, hexec⟩ := runTransaction_next h
    simp only [decode] at hi
    split at hi
    · cases hi
      cases hr : regAt p.regAddr <;> rw [hr] at hexec <;> cases hexec <;> exact ⟨_, rfl⟩
    · cases hi
  · cases h
    exact ⟨_, rfl⟩

/-- An edge has an OUT_BEAT for its beat, or none at all (R62). -/
theorem streamTransactions_cases (p : Pins) (s : State) :
    streamTransactions p s = [.outBeat] ∨ .outBeat ∉ streamTransactions p s := by
  unfold streamTransactions
  split
  · exact .inl rfl
  · split <;> simp

/-- The events of an edge take at most one byte, and only from EMIT (R48, R62). -/
theorem cycleTransactions_takes {p : Pins} {s u t : State}
    (h : runTransactions (cycleTransactions p s) u = .next t) :
    ∃ taken, t.outStream = u.outStream ++ taken ∧ taken.length ≤ 1 ∧ (taken ≠ [] → u.runState = .emit) := by
  have hread : .outBeat ∉ readTransactions p := by unfold readTransactions; split <;> simp
  have hwrite : .outBeat ∉ writeTransactions p := by unfold writeTransactions; split <;> simp
  rcases streamTransactions_cases p s with hstream | hstream
  · obtain ⟨m', hcycle, hlast⟩ := runTransactions_append h
    obtain ⟨m, hfirst, hbeat⟩ := runTransactions_append hcycle
    obtain ⟨resp, rfl⟩ := readTransactions_next hfirst
    rw [hstream, runTransactions_single, runTransaction_of_decode (i := .outBeat) rfl] at hbeat
    rw [runTransactions_keeps_outStream hwrite hlast]
    rcases (exec_outStream hbeat).2 with hkept | ⟨-, hemit, beat, htaken⟩
    · exact ⟨[], by simpa using hkept, by simp, by simp⟩
    · exact ⟨[beat], htaken, by simp, fun _ => hemit⟩
  · have hnone : .outBeat ∉ cycleTransactions p s := by simp [cycleTransactions, hread, hstream, hwrite]
    exact ⟨[], by simpa using runTransactions_keeps_outStream hnone h, by simp, by simp⟩

/-- Settles O51: no event writes MAX_WIDTH, and only an edge's beat takes a byte. -/
theorem takenBytesStayTaken : Obligations.TakenBytesStayTaken := by
  intro s t h
  rcases step_cases h with ⟨-, rfl⟩ | ⟨p, rest, -, ⟨-, rfl⟩ | ⟨-, -, -, hrun⟩⟩
  · exact ⟨rfl, [], by simp, by simp, by simp⟩
  · exact ⟨rfl, [], by simp, by simp, by simp⟩
  · obtain ⟨taken, hout, hlen, hemit⟩ := cycleTransactions_takes hrun
    have hwidth := runTransactions_keeps_maxWidth hrun
    exact ⟨hwidth, taken, hout, hlen, hemit⟩

end Sys2Proof.Machine
end

section
/-! SUPPORT. The numbers under the register words (10_state.md R37, R40), the words a read answers, and the state after
reset. -/

namespace Sys2Proof.Machine

/-- Appended fields add up, the high one shifted past the low one. -/
theorem toNat_append_add {m n : Nat} (x : BitVec m) (y : BitVec n) :
    (x ++ y).toNat = x.toNat * 2 ^ n + y.toNat := by
  rw [BitVec.toNat_append, ← Nat.shiftLeft_add_eq_or_of_lt y.isLt, Nat.shiftLeft_eq]

/-- STATUS as the sum of its fields at their places (R37). -/
theorem statusWord_toNat (s : State) :
    (statusWord s).toNat = s.selfPair.toNat * 2 ^ 15 + s.n.toNat * 2 ^ 12 + (errCodeBits s.errCode).toNat * 2 ^ 8 +
      ((errFlag s.runState).toNat * 32 + (doneFlag s.runState).toNat * 16 + (busyFlag s.runState).toNat * 8 +
        (stateCode s.runState).toNat) := by
  unfold statusWord
  iterate 8 erw [toNat_append_add]
  simp only [BitVec.toNat_ofBool, BitVec.toNat_ofNat]
  omega

/-- STATE and the flags sit in bits 5:0 of STATUS (R37). -/
theorem statusWord_flags (s : State) : (statusWord s).extractLsb' 0 6 =
    BitVec.ofNat 6 ((errFlag s.runState).toNat * 32 + (doneFlag s.runState).toNat * 16 +
      (busyFlag s.runState).toNat * 8 + (stateCode s.runState).toNat) := by
  apply BitVec.eq_of_toNat_eq
  rw [BitVec.extractLsb'_toNat, statusWord_toNat, BitVec.toNat_ofNat, Nat.shiftRight_zero]
  omega

/-- STATE and the flags stay below the fields above them (R37). -/
theorem statusWord_flags_lt (s : State) : (errFlag s.runState).toNat * 32 + (doneFlag s.runState).toNat * 16 +
    (busyFlag s.runState).toNat * 8 + (stateCode s.runState).toNat < 2 ^ 6 := by
  cases s.runState <;> decide

theorem statusWord_reserved (s : State) : (statusWord s).extractLsb' 6 2 = 0#2 := by
  have hflags := statusWord_flags_lt s
  apply BitVec.eq_of_toNat_eq
  rw [BitVec.extractLsb'_toNat, statusWord_toNat, BitVec.toNat_ofNat, Nat.shiftRight_eq_div_pow]
  omega

theorem statusWord_errCode (s : State) : (statusWord s).extractLsb' 8 4 = errCodeBits s.errCode := by
  have hflags := statusWord_flags_lt s
  apply BitVec.eq_of_toNat_eq
  rw [BitVec.extractLsb'_toNat, statusWord_toNat, Nat.shiftRight_eq_div_pow]
  omega

theorem statusWord_n (s : State) : (statusWord s).extractLsb' 12 3 = s.n := by
  have hflags := statusWord_flags_lt s
  apply BitVec.eq_of_toNat_eq
  rw [BitVec.extractLsb'_toNat, statusWord_toNat, Nat.shiftRight_eq_div_pow]
  omega

theorem statusWord_selfPair (s : State) : (statusWord s).getLsbD 15 = s.selfPair := by
  have hflags := statusWord_flags_lt s
  rw [BitVec.getLsbD, statusWord_toNat, Nat.testBit_eq_decide_div_mod_eq]
  cases s.selfPair <;> simp <;> omega

theorem statusWord_high (s : State) : (statusWord s).extractLsb' 16 16 = 0#16 := by
  have hflags := statusWord_flags_lt s
  have hself := s.selfPair.toNat_lt
  apply BitVec.eq_of_toNat_eq
  rw [BitVec.extractLsb'_toNat, statusWord_toNat, BitVec.toNat_ofNat, Nat.shiftRight_eq_div_pow]
  omega

/-- Settles O17, field by field of STATUS. -/
theorem readStatusShowsItsFields : Obligations.ReadStatusShowsItsFields := by
  intro s
  refine ⟨statusWord s, rfl, ?_⟩
  rw [statusWord_flags, statusWord_reserved, statusWord_errCode, statusWord_n, statusWord_selfPair, statusWord_high]
  refine ⟨?_, ?_, ?_, ?_, ?_, ?_, rfl, ?_, ?_, ?_, ?_, rfl, rfl, rfl⟩ <;> intro hs <;> rw [hs] <;> rfl

/-- Half of a 16-bit dimension, rounded up, keeps its 17-bit sum (R40). -/
theorem halfUp_toNat (v : Half) : (halfUp v).toNat = (v.toNat + 1) / 2 := by
  have hv := v.isLt
  simp only [halfUp, BitVec.toNat_setWidth, BitVec.toNat_ushiftRight, BitVec.toNat_add, BitVec.toNat_ofNat,
    Nat.shiftRight_eq_div_pow]
  omega

/-- Settles O19: OUT_DIM is its two halves side by side. -/
theorem readOutDimShowsTheHalvedDimensions : Obligations.ReadOutDimShowsTheHalvedDimensions := by
  intro s
  have hword : (outDimWord s).toNat = (s.cfgHeight.toNat + 1) / 2 * 2 ^ 16 + (s.cfgWidth.toNat + 1) / 2 := by
    rw [← halfUp_toNat, ← halfUp_toNat]
    exact toNat_append_add _ _
  have hwidth := s.cfgWidth.isLt
  refine ⟨outDimWord s, rfl, ?_, ?_⟩ <;> omega

/-- Settles O16: a Reset of the reset state is the reset state, and each register's word is that of its cleared fields. -/
theorem resetStateReadsAsSpecified : Obligations.ResetStateReadsAsSpecified := by
  refine ⟨rfl, fun r hr => ?_, rfl, rfl, rfl, rfl⟩
  simp only [List.mem_cons, List.not_mem_nil, or_false] at hr
  rcases hr with rfl | rfl | rfl | rfl | rfl <;> rfl

end Sys2Proof.Machine
end

section
/-! SUPPORT. The events of one rising edge in the order of R62: the read of the state at its start, the beat judged against that
state, the write after it; and what EMIT holds until its byte is taken. -/

namespace Sys2Proof

/-- Settles O6: every port's bits decode but those of a misaligned offset. -/
theorem onlyMisalignedAccessesFailToDecode : Obligations.OnlyMisalignedAccessesFailToDecode := by
  intro t
  cases t with
  | reset | outBeat | inBeat _ => simp [decode]
  | regRead addr => simp [decode_regRead_misaligned]
  | regWrite addr data => simp [decode_regWrite_misaligned]

theorem decode_regRead_aligned {addr : Offset} {i : Instr} (h : decode (.regRead addr) = .ok i) :
    i = readInstr (regAt addr) := by
  simp only [decode] at h
  split at h <;> cases h
  rfl

end Sys2Proof

namespace Sys2Proof.Machine

/-- Settles O42: an event that leaves the run going and takes no byte is at most a register read. -/
theorem emitHoldsItsOutput : Obligations.EmitHoldsItsOutput := by
  intro i s t hs h hbeat habort hreset herr
  cases exec_cases h with
  | unchanged | answered _ => exact ⟨hs, rfl, rfl, rfl, rfl, rfl⟩
  | configured _ _ _ _ hstop _ | started _ hstop => simp [hs] at hstop
  | aborted hi => exact absurd hi habort
  | resetted hi => exact absurd hi hreset
  | rejected _ _ | truncated _ _ _ _ => exact absurd rfl herr
  | storedA _ _ _ _ _ hacq _ | storedB _ _ _ _ _ hacq _ => simp [hs] at hacq
  | taken _ hi _ _ => exact absurd hi hbeat

/-- The word a register shows (R36 to R43). -/
def registerWord : HostReg → State → Word
  | .cmd, _ => cmdWord
  | .status, s => statusWord s
  | .format, s => formatWord s
  | .dim, s => dimWord s
  | .outDim, s => outDimWord s
  | .progress, s => progressWord s
  | .param, s => paramWord s
  | .rsvd, _ => rsvdWord

/-- A read answers its register's word and changes nothing else (R49, R60). -/
theorem exec_readInstr (r : HostReg) (s : State) :
    exec (readInstr r) s = .next { s with readResp := some (registerWord r s) } := by
  cases r <;> rfl

/-- What the host's side of the ports holds is in no register. -/
theorem registerWord_ports (r : HostReg) (s : State) (resp : Option Word) (wait : Option Beat) (pend : List Pins) (k : Nat) :
    registerWord r { s with readResp := resp, waiting := wait, pending := pend, freeCount := k } = registerWord r s := by
  cases r <;> rfl

/-- Settles O20: a read's own answer is in no register. -/
theorem readsHaveNoSideEffect : Obligations.ReadsHaveNoSideEffect := by
  intro s r
  refine ⟨registerWord r s, exec_readInstr r s, ?_⟩
  rw [exec_readInstr]
  exact congrArg (fun v => Host.Outcome.next { s with readResp := some v }) (registerWord_ports r s _ _ _ _)

section Edge

variable {s : State} {p : Pins} {rest : List Pins}

/-- An edge that nothing forbids runs its events in their order (R62). -/
theorem step_allowed (hp : s.pending = p :: rest) (hrst : p.rst = false) (hstrobes : (p.regWe && p.regRe) = false)
    (hheld : offerChanged p s = false) :
    step s = runTransactions (cycleTransactions p s) (latchPorts p { s with pending := rest }) := by
  have hheld' : offerChanged p { s with pending := rest } = false := hheld
  simp only [step, hp, runCycle, hrst, hstrobes, hheld', Bool.false_eq_true, if_false]
  rfl

/-- An edge that offers no byte changes no offer (R48). -/
theorem offerChanged_of_no_offer (s : State) (hin : p.inValid = false) : offerChanged p s = false := by
  simp [← Bool.not_eq_true, offerChanged_iff, hin]

/-- A misaligned access stops the edge's events (R57). -/
theorem runTransactions_misaligned {t : Transaction} (ht : decode t = .error .misalignedOffset) (ts : List Transaction)
    (s : State) : runTransactions (t :: ts) s = .refused .misalignedAccess := by
  simp [runTransactions, runTransaction, ht]

end Edge

/-- Settles O48: the branches of an edge, and the misaligned access as its first event. -/
theorem forbiddenEdgesAreRefused : Obligations.ForbiddenEdgesAreRefused := by
  intro s p rest hp hrst
  refine ⟨fun hwe hre => ?_, fun hnot hin hchg => ?_, fun hre hwe hin hmis => ?_, fun hwe hre hin hout hmis => ?_⟩
  · simp [step, hp, runCycle, hrst, hwe, hre]
  · have hstrobes : (p.regWe && p.regRe) = false := by simpa using hnot
    have hchanged : offerChanged p { s with pending := rest } = true := (offerChanged_iff p _).2 ⟨hin, hchg⟩
    simp [step, hp, runCycle, hrst, hstrobes, hchanged]
  · rw [step_allowed hp hrst (by simp [hwe]) (offerChanged_of_no_offer s hin)]
    have hevents : cycleTransactions p s = .regRead p.regAddr :: (streamTransactions p s ++ writeTransactions p) := by
      simp [cycleTransactions, readTransactions, hre]
    rw [hevents]
    exact runTransactions_misaligned ((decode_regRead_misaligned _).2 hmis) _ _
  · rw [step_allowed hp hrst (by simp [hre]) (offerChanged_of_no_offer s hin)]
    have hevents : cycleTransactions p s = [.regWrite p.regAddr p.regWdata] := by
      simp [cycleTransactions, readTransactions, streamTransactions, writeTransactions, hre, hwe, hin, hout]
    rw [hevents]
    exact runTransactions_misaligned ((decode_regWrite_misaligned _ _).2 hmis) _ _

/-- Events that answer a next state hand it to those after them. -/
theorem runTransactions_append_next {xs : List Transaction} {s m : State} (h : runTransactions xs s = .next m)
    (ys : List Transaction) : runTransactions (xs ++ ys) s = runTransactions ys m := by
  induction xs generalizing s with
  | nil => cases h; rfl
  | cons x xs ih =>
    obtain ⟨u, hx, hxs⟩ := runTransactions_cons_next.1 h
    simp only [List.cons_append, runTransactions, hx]
    exact ih hxs

/-- A state with another read answer on the port. -/
def withAnswer (resp : Option Word) (s : State) : State := { s with readResp := resp }

/-- Completing a row of ROW_A neither reads nor writes the read answer. -/
theorem completeRowA_withAnswer (s : State) (resp : Option Word) :
    completeRowA (withAnswer resp s) = withAnswer resp <$> completeRowA s := by
  simp only [completeRowA, map_bind, apply_ite (withAnswer resp <$> ·), map_pure]
  rfl

theorem completeRowB_withAnswer (s : State) (resp : Option Word) :
    completeRowB (withAnswer resp s) = withAnswer resp <$> completeRowB s := by
  simp only [completeRowB, map_bind, map_pure]
  rfl

theorem storeInA_withAnswer (d : Byte) (s : State) (resp : Option Word) :
    storeInA d (withAnswer resp s) = withAnswer resp <$> storeInA d s := by
  simp only [storeInA, map_bind, apply_ite (withAnswer resp <$> ·), map_pure, ← completeRowA_withAnswer]
  rfl

theorem storeInB_withAnswer (d : Byte) (s : State) (resp : Option Word) :
    storeInB d (withAnswer resp s) = withAnswer resp <$> storeInB d s := by
  simp only [storeInB, map_bind, apply_ite (withAnswer resp <$> ·), map_pure, ← completeRowB_withAnswer]
  rfl

theorem advanceOut_withAnswer (s : State) (resp : Option Word) :
    advanceOut (withAnswer resp s) = withAnswer resp (advanceOut s) := by
  simp only [advanceOut, apply_ite (withAnswer resp)]
  rfl

theorem outcomeOf_withAnswer {e : Except Fault State} {t : State} (h : outcomeOf e = .next t) (resp : Option Word) :
    outcomeOf (withAnswer resp <$> e) = .next (withAnswer resp t) := by
  rw [outcomeOf_next h]
  rfl

/-- An input beat neither reads nor writes the read answer. -/
theorem execInBeat_withAnswer {d : Byte} {last : Bool} {s t : State} (h : execInBeat d last s = .next t)
    (resp : Option Word) : execInBeat d last (withAnswer resp s) = .next (withAnswer resp t) := by
  have hrun : (withAnswer resp s).runState = s.runState := rfl
  have htr : truncates last (withAnswer resp s) = truncates last s := rfl
  simp only [execInBeat, hrun, htr, storeInA_withAnswer, storeInB_withAnswer] at h ⊢
  cases hs : s.runState with
  | acqA | acqB =>
    simp only [hs] at h ⊢
    cases hcut : truncates last s with
    | true => simp only [hcut, if_true] at h ⊢; cases h; rfl
    | false =>
      simp only [hcut, Bool.false_eq_true, if_false] at h ⊢
      exact outcomeOf_withAnswer h resp
  | idle | emit | done | error =>
    simp only [hs] at h ⊢
    cases h
    rfl

/-- An output beat neither reads nor writes the read answer. -/
theorem execOutBeat_withAnswer {s t : State} (h : execOutBeat s = .next t) (resp : Option Word) :
    execOutBeat (withAnswer resp s) = .next (withAnswer resp t) := by
  by_cases hs : s.runState = .emit
  · cases hd : readSlot s.outPixels s.rowOut (pixelOf s.outPos.toNat s.lanes) (laneOf s.outPos.toNat s.lanes) with
    | error f => simp [execOutBeat, hs, hd] at h
    | ok d =>
      have htaken := h.symm.trans (exec_outBeat_emit hs hd)
      cases htaken
      rw [← advanceOut_withAnswer]
      exact exec_outBeat_emit (s := withAnswer resp s) hs hd
  · rw [execOutBeat_waits hs] at h
    cases h
    exact execOutBeat_waits (s := withAnswer resp s) hs

/-- An edge's beat neither reads nor writes the read answer. -/
theorem streamTransactions_withAnswer {p : Pins} {s u t : State} (h : runTransactions (streamTransactions p s) u = .next t)
    (resp : Option Word) :
    runTransactions (streamTransactions p s) (withAnswer resp u) = .next (withAnswer resp t) := by
  unfold streamTransactions at h ⊢
  split_ifs at h ⊢
  · rw [runTransactions_single, runTransaction_of_decode (i := .outBeat) rfl] at h ⊢
    exact execOutBeat_withAnswer h resp
  · rw [runTransactions_single, runTransaction_of_decode rfl] at h ⊢
    exact execInBeat_withAnswer h resp
  · cases h
    rfl

/-- The beat of an edge is judged by the handshakes of the state it starts in; one that is not complete waits (R62). -/
theorem runTransactions_stream {p : Pins} {s u : State} (hrun : u.runState = s.runState) :
    runTransactions (streamTransactions p s) u =
      (if p.outReady && s.outValid then exec .outBeat
       else if p.inValid && s.inReady then exec (.inBeat p.inData p.inLast)
       else Host.Outcome.next) u := by
  have htake : runTransactions [.outBeat] u = exec .outBeat u := by
    rw [runTransactions_single, runTransaction_of_decode rfl]
  have hoffer : runTransactions [.inBeat (packBeat ⟨p.inData, p.inLast⟩)] u = exec (.inBeat p.inData p.inLast) u := by
    rw [runTransactions_single, runTransaction_of_decode (i := .inBeat p.inData p.inLast)]
    simp [decode, unpackBeat_packBeat]
  unfold streamTransactions
  cases hin : p.inValid with
  | true =>
    simp only [Bool.not_true, Bool.or_false, Bool.true_and, if_true]
    split
    · exact htake
    · rw [hoffer]
      cases hready : s.inReady with
      | true => rfl
      | false =>
        have hacq := s.inReady_iff.not.1 (by simp [hready])
        rw [not_or, ← hrun] at hacq
        exact execInBeat_waits hacq.1 hacq.2 _ _
  | false =>
    simp only [Bool.not_false, Bool.or_true, Bool.and_true, Bool.false_and, Bool.false_eq_true, if_false]
    cases hout : p.outReady with
    | false => rfl
    | true =>
      simp only [Bool.true_and, if_true, htake]
      cases hvalid : s.outValid with
      | true => rfl
      | false =>
        have hemit := s.outValid_iff.not.1 (by simp [hvalid])
        exact execOutBeat_waits (hrun ▸ hemit)

/-- An edge without reset that answers a next state was allowed and ran its events. -/
theorem step_next {s t : State} {p : Pins} {rest : List Pins} (hp : s.pending = p :: rest) (hrst : p.rst = false)
    (h : step s = .next t) : (p.regWe && p.regRe) = false ∧ offerChanged p s = false ∧
      runTransactions (cycleTransactions p s) (latchPorts p { s with pending := rest }) = .next t := by
  rcases step_cases h with ⟨hnone, -⟩ | ⟨q, rest', hq, hcase⟩
  · simp [hp] at hnone
  · obtain ⟨rfl, rfl⟩ : p = q ∧ rest = rest' := by simpa [hp] using hq
    rcases hcase with ⟨hreset, -⟩ | ⟨-, hallowed⟩
    · simp [hrst] at hreset
    · exact hallowed

/-- An edge with a read: the edge without it, and the register's word as the answer (R49, R62). -/
theorem step_read {s t : State} {p : Pins} {rest : List Pins} (hp : s.pending = p :: rest) (hrst : p.rst = false)
    (hre : p.regRe = true) (h : step s = .next t) :
    ∃ u, step { s with pending := { p with regRe := false } :: rest } = .next u ∧
      t = withAnswer (some (registerWord (regAt p.regAddr) s)) u := by
  obtain ⟨hstrobes, hheld, hrun⟩ := step_next hp hrst h
  have hwe : p.regWe = false := by simpa [hre] using hstrobes
  have hevents : cycleTransactions p s = .regRead p.regAddr :: streamTransactions p s := by
    simp [cycleTransactions, readTransactions, writeTransactions, hre, hwe]
  obtain ⟨m, hread, hbeat⟩ := runTransactions_cons_next.1 (hevents ▸ hrun)
  obtain ⟨i, hdec, hexec⟩ := runTransaction_next hread
  cases decode_regRead_aligned hdec
  rw [exec_readInstr] at hexec
  cases hexec
  have hkept := (streamTransactions_withAnswer hbeat _).symm.trans hbeat
  refine ⟨withAnswer none t, ?_, (Host.Outcome.next.inj hkept).symm.trans ?_⟩
  · have hrest : cycleTransactions { p with regRe := false } s = streamTransactions p s := by
      simp [cycleTransactions, readTransactions, streamTransactions, writeTransactions, hwe]
    calc step { s with pending := { p with regRe := false } :: rest }
        = runTransactions (cycleTransactions { p with regRe := false } s) (latchPorts p { s with pending := rest }) :=
          step_allowed (p := { p with regRe := false }) rfl hrst (Bool.and_false _) hheld
      _ = .next (withAnswer none t) := hrest ▸ streamTransactions_withAnswer hbeat none
  · exact congrArg (fun v => withAnswer (some v) t) (registerWord_ports _ s _ _ _ _)

/-- An edge with a write: the edge without it, and then the write (R62). -/
theorem step_write {s t : State} {p : Pins} {rest : List Pins} (hrst : p.rst = false) (hre : p.regRe = false)
    (hwe : p.regWe = true) (h : step { s with pending := { p with regWe := false } :: rest } = .next t) :
    step { s with pending := p :: rest } = runTransaction (.regWrite p.regAddr p.regWdata) t := by
  obtain ⟨-, hheld, hrun⟩ := step_next (p := { p with regWe := false }) rfl hrst h
  have hfirst : cycleTransactions { p with regWe := false } s = streamTransactions p s := by
    simp [cycleTransactions, readTransactions, streamTransactions, writeTransactions, hre]
  have hevents : cycleTransactions p s = streamTransactions p s ++ [.regWrite p.regAddr p.regWdata] := by
    simp [cycleTransactions, readTransactions, writeTransactions, hre, hwe]
  calc step { s with pending := p :: rest }
      = runTransactions (cycleTransactions p s) (latchPorts p { s with pending := rest }) :=
        step_allowed rfl hrst (by simp [hre]) hheld
    _ = runTransactions [.regWrite p.regAddr p.regWdata] t := by
        rw [hevents]
        exact runTransactions_append_next (hfirst ▸ hrun) _
    _ = runTransaction (.regWrite p.regAddr p.regWdata) t := runTransactions_single _ _

/-- Settles O46: reset alone, then the read, the beat and the write as the edge's list of events has them. -/
theorem edgeEventsTakeEffectInOrder : Obligations.EdgeEventsTakeEffectInOrder := by
  intro s t p rest
  refine ⟨fun hrst hp => ?_, fun hrst hre hp h => ?_, fun hrst hre hwe hheld hp => ?_, step_write⟩
  · simp only [step, hp, runCycle, hrst, if_true]
    rfl
  · obtain ⟨u, hu, rfl⟩ := step_read hp hrst hre h
    exact ⟨_, u, exec_readInstr _ s, hu, rfl⟩
  · rw [step_allowed hp hrst (by simp [hwe]) hheld]
    have hevents : cycleTransactions p s = streamTransactions p s := by
      simp [cycleTransactions, readTransactions, writeTransactions, hre, hwe]
    rw [hevents]
    exact runTransactions_stream rfl

/-- Settles O47: the answer stands on the port whatever else the edge did. -/
theorem readDataIsOnThePortNextCycle : Obligations.ReadDataIsOnThePortNextCycle := by
  intro s t p rest hp hrst hre h
  obtain ⟨u, -, rfl⟩ := step_read hp hrst hre h
  exact ⟨_, exec_readInstr _ s, rfl⟩

end Sys2Proof.Machine
end

section
/-! SUPPORT. A whole frame (R54, R55, R106, R149): what an accepted input byte and a taken output byte can do, the byte of the
frame each one pays, the rows held as rows of the image, and the frame driven to its end. -/

namespace Sys2Proof.Machine

/-- The five things an accepted input byte can do: a byte inside a row of ROW_A or ROW_B, the end of a pair's first row, of a
self-paired row, and of a pair's second row (R100, R102). What ROW_OUT then holds is the invariant's to say. -/
inductive Acquired (d : Byte) (s : State) : State → Prop
  | insideA : s.runState = .acqA → s.inPos.toNat + 1 < s.rowBytes →
      Acquired d s { s with rowA := s.rowA.write (nextSlot s) d, inPos := s.inPos + 1#18 }
  | insideB : s.runState = .acqB → s.inPos.toNat + 1 < s.rowBytes →
      Acquired d s { s with rowB := s.rowB.write (nextSlot s) d, inPos := s.inPos + 1#18 }
  | pairFirst {a : Memory} : s.runState = .acqA → s.inPos.toNat + 1 = s.rowBytes →
      padRow s.rowPixels s.width s.lanes (s.rowA.write (nextSlot s) d) = .ok a →
      Acquired d s (enterAcqB { s with rowA := a, inRows := s.inRows + 1#16 })
  | selfPaired {a out : Memory} : s.runState = .acqA → s.inPos.toNat + 1 = s.rowBytes → s.selfPair = true →
      padRow s.rowPixels s.width s.lanes (s.rowA.write (nextSlot s) d) = .ok a →
      Acquired d s (enterEmit { s with rowA := a, inRows := s.inRows + 1#16, rowOut := out })
  | pairSecond {b out : Memory} : s.runState = .acqB → s.inPos.toNat + 1 = s.rowBytes →
      padRow s.rowPixels s.width s.lanes (s.rowB.write (nextSlot s) d) = .ok b →
      Acquired d s (enterEmit { s with rowB := b, inRows := s.inRows + 1#16, rowOut := out })

/-- The next byte of a row is inside it or the one at its end (R100). -/
theorem State.rowEnd_cases {s : State} (hpos : s.inPos.toNat < s.rowBytes) :
    (s.atRowEnd = false ∧ s.inPos.toNat + 1 < s.rowBytes) ∨ (s.atRowEnd = true ∧ s.inPos.toNat + 1 = s.rowBytes) := by
  cases hend : s.atRowEnd with
  | false =>
    have hne : ¬ s.inPos.toNat + 1 = s.rowBytes := by rw [← s.atRowEnd_iff, hend]; simp
    exact .inl ⟨rfl, by omega⟩
  | true => exact .inr ⟨rfl, s.atRowEnd_iff.1 hend⟩

theorem FormatOk.outRowBytes_pos {s : State} (hf : FormatOk s) : 0 < s.outRowBytes :=
  Nat.mul_pos (by have := hf.width_pos; unfold State.widthOut; omega) hf.lanes_bounds.1

/-- An input byte that does not truncate the frame is accepted in ACQ_A and ACQ_B (R100). -/
theorem Inv.acquires {s : State} (h : Inv s) (hs : s.runState = .acqA ∨ s.runState = .acqB) (d : Byte) {last : Bool}
    (htr : truncates last s = false) : ∃ t, exec (.inBeat d last) s = .next t ∧ Acquired d s t := by
  rcases hs with hs | hs
  · obtain ⟨hf, -, -, hpos, -, hbytes⟩ := h.acqA hs
    rcases State.rowEnd_cases hpos with ⟨hend, hmid⟩ | ⟨hend, hlast⟩
    · exact ⟨_, exec_inBeat_acqA hs htr (storeInA_mid hf hpos hend d), .insideA hs hmid⟩
    · cases hself : s.selfPair with
      | false =>
        obtain ⟨a, hpad, hstore, -⟩ := storeInA_pair hf hpos hend hself hbytes d
        exact ⟨_, exec_inBeat_acqA hs htr hstore, .pairFirst hs hlast hpad⟩
      | true =>
        obtain ⟨a, out, hpad, hstore, -⟩ := storeInA_self hf hpos hend hself hbytes d
        exact ⟨_, exec_inBeat_acqA hs htr hstore, .selfPaired hs hlast hself hpad⟩
  · obtain ⟨hf, -, -, hpos, -, hdone, hbytes⟩ := h.acqB hs
    rcases State.rowEnd_cases hpos with ⟨hend, hmid⟩ | ⟨hend, hlast⟩
    · exact ⟨_, exec_inBeat_acqB hs htr (storeInB_mid hf hpos hend d), .insideB hs hmid⟩
    · obtain ⟨b, out, hpad, hstore, -⟩ := storeInB_end hf hpos hend hdone hbytes d
      exact ⟨_, exec_inBeat_acqB hs htr hstore, .pairSecond hs hlast hpad⟩

section Owed

variable {s t : State} {d : Byte}

/-- The row's last byte is the last before the next row's first (R54). -/
theorem State.inIndex_rowEnd (hend : s.inPos.toNat + 1 = s.rowBytes) :
    (s.inRows.toNat + 1) * s.rowBytes = s.inIndex + 1 := by
  rw [Nat.succ_mul, State.inIndex]
  omega

theorem State.outIndex_rowEnd (hend : s.outPos.toNat + 1 = s.outRowBytes) :
    (s.outRows.toNat + 1) * s.outRowBytes = s.outIndex + 1 := by
  rw [Nat.succ_mul, State.outIndex]
  omega

theorem State.inputLeft_acquiring (hs : s.runState = .acqA ∨ s.runState = .acqB) :
    s.inputLeft = s.height * s.rowBytes - s.inIndex := by
  rcases hs with hs | hs <;> simp [State.inputLeft, hs]

theorem State.inputLeft_emit (hs : s.runState = .emit) :
    s.inputLeft = s.height * s.rowBytes - s.inRows.toNat * s.rowBytes := by
  simp [State.inputLeft, hs]

theorem State.outputLeft_acquiring (hs : s.runState = .acqA ∨ s.runState = .acqB) :
    s.outputLeft = s.heightOut * s.outRowBytes - s.outRows.toNat * s.outRowBytes := by
  rcases hs with hs | hs <;> simp [State.outputLeft, hs]

theorem State.outputLeft_emit (hs : s.runState = .emit) : s.outputLeft = s.heightOut * s.outRowBytes - s.outIndex := by
  simp [State.outputLeft, hs]

theorem State.left_done (hs : s.runState = .done) : s.inputLeft = 0 ∧ s.outputLeft = 0 := by
  simp [State.inputLeft, State.outputLeft, hs]

/-- An acquiring state's format and the row counter before its row's end. -/
theorem Inv.acquiring_format (h : Inv s) (hs : s.runState = .acqA ∨ s.runState = .acqB) :
    FormatOk s ∧ (s.inRows + 1#16).toNat = s.inRows.toNat + 1 := by
  have hheight := s.height_lt
  obtain ⟨hlt, -⟩ := h.acquiring hs
  exact ⟨hs.elim (fun hs => (h.acqA hs).1) (fun hs => (h.acqB hs).1), half_succ (by omega)⟩

/-- An accepted input byte pays one byte of the input owed (R106). -/
theorem Acquired.pays (ha : Acquired d s t) (h : Inv s) :
    t.inputLeft + 1 = s.inputLeft ∧ t.outputLeft = s.outputLeft := by
  have hs : s.runState = .acqA ∨ s.runState = .acqB := by cases ha <;> simp [*]
  obtain ⟨hlt, hpos, -⟩ := h.acquiring hs
  obtain ⟨hf, hrows⟩ := h.acquiring_format hs
  have hinside : s.inIndex < s.height * s.rowBytes := streamIndex_lt hlt hpos
  have hrow (hend : s.inPos.toNat + 1 = s.rowBytes) : (s.inRows + 1#16).toNat * s.rowBytes = s.inIndex + 1 := by
    rw [hrows, State.inIndex_rowEnd hend]
  suffices t.inputLeft = s.height * s.rowBytes - (s.inIndex + 1) ∧ t.outputLeft = s.outputLeft by
    rw [State.inputLeft_acquiring hs]
    omega
  rw [State.outputLeft_acquiring hs]
  cases ha with
  | insideA hrun hmid | insideB hrun hmid =>
    have hplace : s.inRows.toNat * s.rowBytes + (s.inPos + 1#18).toNat = s.inIndex + 1 := by
      rw [inPos_succ hf hmid]
      rfl
    exact ⟨.trans (State.inputLeft_acquiring hs) (congrArg (s.height * s.rowBytes - ·) hplace),
      State.outputLeft_acquiring hs⟩
  | pairFirst _ hend _ =>
    exact ⟨.trans (State.inputLeft_acquiring (.inr rfl)) (congrArg (s.height * s.rowBytes - ·) (hrow hend)),
      State.outputLeft_acquiring (.inr rfl)⟩
  | selfPaired _ hend _ _ | pairSecond _ hend _ =>
    exact ⟨.trans (State.inputLeft_emit rfl) (congrArg (s.height * s.rowBytes - ·) (hrow hend)),
      State.outputLeft_emit rfl⟩

/-- A taken output byte pays one byte of the output owed (R106). -/
theorem Inv.advance_pays (h : Inv s) (hs : s.runState = .emit) :
    (advanceOut s).outputLeft + 1 = s.outputLeft ∧ (advanceOut s).inputLeft = s.inputLeft := by
  have hE := h.emit hs
  obtain ⟨-, hin⟩ := hE.counted
  have hrows := hE.outRows_succ
  obtain ⟨hf, hlt, hpos, -⟩ := hE
  have hinside : s.outIndex < s.heightOut * s.outRowBytes := streamIndex_lt hlt hpos
  suffices (advanceOut s).outputLeft = s.heightOut * s.outRowBytes - (s.outIndex + 1) ∧
      (advanceOut s).inputLeft = s.inputLeft by
    rw [State.outputLeft_emit hs]
    omega
  rw [State.inputLeft_emit hs]
  cases hend : s.atOutRowEnd with
  | false =>
    have hmid : s.outPos.toNat + 1 < s.outRowBytes := by
      have hne : ¬ s.outPos.toNat + 1 = s.outRowBytes := by rw [← s.atOutRowEnd_iff, hend]; simp
      omega
    have hplace : s.outRows.toNat * s.outRowBytes + (s.outPos + 1#17).toNat = s.outIndex + 1 := by
      rw [outPos_succ hf hmid]
      rfl
    rw [advanceOut_mid hend]
    exact ⟨.trans (State.outputLeft_emit hs) (congrArg (s.heightOut * s.outRowBytes - ·) hplace),
      State.inputLeft_emit hs⟩
  | true =>
    have hrow : (s.outRows + 1#16).toNat * s.outRowBytes = s.outIndex + 1 := by
      rw [hrows, State.outIndex_rowEnd (s.atOutRowEnd_iff.1 hend)]
    by_cases hlast : (s.outRows + 1#16).toNat = s.heightOut
    · rw [advanceOut_frame hend hlast, (State.left_done rfl).1, (State.left_done rfl).2]
      have hall : s.inRows.toNat = s.height := by unfold State.heightOut at hlast; omega
      rw [← hrow, hlast, hall]
      omega
    · rw [advanceOut_row hend hlast]
      exact ⟨.trans (State.outputLeft_acquiring (.inl rfl)) (congrArg (s.heightOut * s.outRowBytes - ·) hrow),
        State.inputLeft_acquiring (.inl rfl)⟩

/-- A run state owes output (R106). -/
theorem Inv.outputLeft_pos (h : Inv s) (hs : busyFlag s.runState = true) : 0 < s.outputLeft := by
  have howed {rows : Nat} (hf : FormatOk s) (hrows : rows < s.heightOut) :
      0 < s.heightOut * s.outRowBytes - rows * s.outRowBytes := by
    rw [← Nat.sub_mul]
    exact Nat.mul_pos (by omega) hf.outRowBytes_pos
  cases hrun : s.runState with
  | acqA =>
    obtain ⟨hf, hrows, hlt, -⟩ := h.acqA hrun
    rw [State.outputLeft_acquiring (.inl hrun)]
    exact howed hf (by unfold State.heightOut; omega)
  | acqB =>
    obtain ⟨hf, hrows, hlt, -⟩ := h.acqB hrun
    rw [State.outputLeft_acquiring (.inr hrun)]
    exact howed hf (by unfold State.heightOut; omega)
  | emit =>
    obtain ⟨-, hlt, hpos, -⟩ := h.emit hrun
    have hinside : s.outIndex < s.heightOut * s.outRowBytes := streamIndex_lt hlt hpos
    rw [State.outputLeft_emit hrun]
    omega
  | idle | done | error => simp [hrun, busyFlag] at hs

end Owed

/-- The first `count` bytes of a row buffer are those of stored row r of the image (R54, R100). -/
def BytesFrom (img : Nat → Byte) (w n r : Nat) (m : Memory) (count : Nat) : Prop :=
  ∀ k < count, m.read (slotAddr (pixelOf k n) (laneOf k n)) = some (img (r * (w * n) + k))

/-- A padded row buffer holds stored row r of the image; past its last pixel, the last again (R101). -/
def RowFrom (img : Nat → Byte) (w n r : Nat) (m : Memory) : Prop :=
  ∀ j < 2 * ((w + 1) / 2), ∀ c < n, m.read (slotAddr j c) = some (img (frameIndex w n r (min j (w - 1)) c))

/-- The rows held are rows of the image: in an acquiring state those before the next byte, in EMIT the two that the output row
is the average of (R54, R102, R108). -/
structure RowsFromImage (img : Nat → Byte) (s : State) : Prop where
  acqA : s.runState = .acqA → BytesFrom img s.width s.lanes s.inRows.toNat s.rowA s.inPos.toNat
  acqB : s.runState = .acqB → RowFrom img s.width s.lanes (2 * s.outRows.toNat) s.rowA ∧
    BytesFrom img s.width s.lanes s.inRows.toNat s.rowB s.inPos.toNat
  emit : s.runState = .emit → RowFrom img s.width s.lanes (2 * s.outRows.toNat) s.rowA ∧
    RowFrom img s.width s.lanes (min (2 * s.outRows.toNat + 1) (s.height - 1)) s.secondRow

section Rows

variable {img : Nat → Byte} {s t : State} {w n r pos : Nat} {m : Memory}

theorem BytesFrom.none : BytesFrom img w n r m 0 := fun _ hk => absurd hk (by simp)

/-- Storing the row's next byte after the bytes before it (R100). -/
theorem BytesFrom.store (h : BytesFrom img w n r m pos) (hn : 1 ≤ n) (hn4 : n ≤ 4) :
    BytesFrom img w n r (m.write (slotAddr (pixelOf pos n) (laneOf pos n)) (img (r * (w * n) + pos))) (pos + 1) := by
  intro k hk
  by_cases hp : k = pos
  · rw [hp, Memory.read_write_same]
  · rw [Memory.read_write_other _ _ (slot_ne hn hn4 hp)]
    exact h k (by omega)

/-- A byte inside its row, stored at the place IN_POS names (R100). -/
theorem BytesFrom.store_inside (h : BytesFrom img s.width s.lanes r m s.inPos.toNat) (hf : FormatOk s)
    (hmid : s.inPos.toNat + 1 < s.rowBytes) :
    BytesFrom img s.width s.lanes r (m.write (nextSlot s) (img (r * s.rowBytes + s.inPos.toNat)))
      (s.inPos + 1#18).toNat := by
  rw [inPos_succ hf hmid]
  exact h.store hf.lanes_bounds.1 hf.lanes_bounds.2

/-- The bytes of a whole row, by pixel and component (R54). -/
theorem BytesFrom.read_pixel (h : BytesFrom img w n r m (w * n)) {j c : Nat} (hj : j < w) (hc : c < n) :
    m.read (slotAddr j c) = some (img (frameIndex w n r j c)) := by
  have hbyte := h _ (streamIndex_lt hj hc)
  rwa [pixelOf, laneOf, streamIndex_div hc, streamIndex_mod hc] at hbyte

/-- The row's last byte and the padding leave the whole row (R100, R101). -/
theorem BytesFrom.complete (h : BytesFrom img s.width s.lanes r m s.inPos.toNat) (hf : FormatOk s)
    (hend : s.inPos.toNat + 1 = s.rowBytes) {a : Memory}
    (hpad : padRow s.rowPixels s.width s.lanes
      (m.write (nextSlot s) (img (r * s.rowBytes + s.inPos.toNat))) = .ok a) :
    RowFrom img s.width s.lanes r a := by
  have hbytes : BytesWritten m s.lanes s.inPos.toNat := fun k hk => by rw [h k hk]; rfl
  obtain ⟨hkeep, hcopy, -⟩ := hbytes.read_padded hf hend hpad
  have hlanes := hf.lanes_bounds
  have hwidth := hf.width_pos
  have hwhole := h.store hlanes.1 hlanes.2
  rw [hend] at hwhole
  have hstored : ∀ j < s.width, ∀ c < s.lanes,
      a.read (slotAddr j c) = some (img (frameIndex s.width s.lanes r j c)) := by
    intro j hj c hc
    rw [hkeep j hj c hc, ← Memory.read_write]
    exact hwhole.read_pixel hj hc
  intro j hj c hc
  by_cases hin : j < s.width
  · rw [Nat.min_eq_left (by omega)]
    exact hstored j hin c hc
  · obtain ⟨rfl, hodd⟩ : j = s.width ∧ s.width % 2 = 1 := by omega
    rw [Nat.min_eq_right (by omega), hcopy hodd c hc]
    exact hstored _ (by omega) c hc

/-- An accepted byte of the image keeps the rows held those of the image (R54, R100, R102). -/
theorem Acquired.rowsFromImage (ha : Acquired (img s.inIndex) s t) (h : Inv s) (hrows : RowsFromImage img s) :
    RowsFromImage img t := by
  cases ha with
  | insideA hs hmid =>
    obtain ⟨hf, -⟩ := h.acqA hs
    exact ⟨fun _ => (hrows.acqA hs).store_inside hf hmid, by simp [hs], by simp [hs]⟩
  | insideB hs hmid =>
    obtain ⟨hf, -⟩ := h.acqB hs
    obtain ⟨hfirst, hbytes⟩ := hrows.acqB hs
    exact ⟨by simp [hs], fun _ => ⟨hfirst, hbytes.store_inside hf hmid⟩, by simp [hs]⟩
  | pairFirst hs hend hpad =>
    obtain ⟨hf, heven, -⟩ := h.acqA hs
    have hdone := (hrows.acqA hs).complete hf hend hpad
    exact ⟨by simp, fun _ => ⟨heven ▸ hdone, .none⟩, by simp⟩
  | @selfPaired a out hs hend hself hpad =>
    have hA := h.acqA hs
    have hlast := hA.selfPair_iff.1 hself
    obtain ⟨hf, heven, -⟩ := hA
    have hdone := (hrows.acqA hs).complete hf hend hpad
    refine ⟨by simp, by simp, fun _ => ⟨heven ▸ hdone, ?_⟩⟩
    have hrow : min (2 * s.outRows.toNat + 1) (s.height - 1) = s.inRows.toNat := by omega
    have hheld : (enterEmit { s with rowA := a, inRows := s.inRows + 1#16, rowOut := out }).secondRow = a := by
      simp [State.secondRow, hself]
    rw [hheld]
    exact hrow ▸ hdone
  | @pairSecond b out hs hend hpad =>
    obtain ⟨hf, hodd, hlt, -, hself, -⟩ := h.acqB hs
    obtain ⟨hfirst, hbytes⟩ := hrows.acqB hs
    have hdone := hbytes.complete hf hend hpad
    refine ⟨by simp, by simp, fun _ => ⟨hfirst, ?_⟩⟩
    have hrow : min (2 * s.outRows.toNat + 1) (s.height - 1) = s.inRows.toNat := by omega
    have hheld : (enterEmit { s with rowB := b, inRows := s.inRows + 1#16, rowOut := out }).secondRow = b := by
      simp [State.secondRow, hself]
    rw [hheld]
    exact hrow ▸ hdone

/-- A taken byte leaves the rows held as they are, and the next row begins with none of its bytes (R114). -/
theorem RowsFromImage.advance (hrows : RowsFromImage img s) (hs : s.runState = .emit) :
    RowsFromImage img (advanceOut s) := by
  cases hend : s.atOutRowEnd with
  | false =>
    rw [advanceOut_mid hend]
    exact ⟨by simp [hs], by simp [hs], hrows.emit⟩
  | true =>
    by_cases hlast : (s.outRows + 1#16).toNat = s.heightOut
    · rw [advanceOut_frame hend hlast]
      exact ⟨by simp, by simp, by simp⟩
    · rw [advanceOut_row hend hlast]
      exact ⟨fun _ => .none, by simp, by simp⟩

/-- In EMIT each component of ROW_OUT is the box filter of the image at its place (R108, R109). -/
theorem RowsFromImage.rowOut (hrows : RowsFromImage img s) (hs : s.runState = .emit) (hE : EmitOk s) {j c : Nat}
    (hj : j < s.widthOut) (hc : c < s.lanes) :
    s.rowOut.read (slotAddr j c) = some (boxFilter img s.width s.height s.lanes s.outRows.toNat j c) := by
  obtain ⟨hfirst, hsecond⟩ := hrows.emit hs
  obtain ⟨p, q, r, u, hp, hq, hr, hu, hout⟩ := hE.samples hj hc
  have hj' : j < (s.width + 1) / 2 := hj
  have hleft : min (2 * j) (s.width - 1) = 2 * j := by omega
  have hp' := hfirst (2 * j) (by omega) c hc
  have hq' := hfirst (2 * j + 1) (by omega) c hc
  have hr' := hsecond (2 * j) (by omega) c hc
  have hu' := hsecond (2 * j + 1) (by omega) c hc
  rw [hleft] at hp' hr'
  cases hp.symm.trans hp'
  cases hq.symm.trans hq'
  cases hr.symm.trans hr'
  cases hu.symm.trans hu'
  exact hout

end Rows

/-- Byte u of the output frame (R55). -/
def outputBeat (img : Nat → Byte) (w h n u : Nat) : Beat :=
  ⟨boxFilter img w h n (u / ((w + 1) / 2 * n)) (u % ((w + 1) / 2 * n) / n) (u % n),
    u + 1 = (h + 1) / 2 * ((w + 1) / 2 * n)⟩

/-- From byte u on, the output frame is that byte and the rest (R55). -/
theorem outputFrame_drop {img : Nat → Byte} {w h n u : Nat} (hu : u < (h + 1) / 2 * ((w + 1) / 2 * n)) :
    (outputFrame img w h n).drop u = outputBeat img w h n u :: (outputFrame img w h n).drop (u + 1) := by
  have hlen : u < (outputFrame img w h n).length := by simpa [outputFrame] using hu
  rw [List.drop_eq_getElem_cons hlen]
  simp [outputFrame, outputBeat]

section Driving

variable {img : Nat → Byte} {s t : State}

/-- LAST marks the last byte of the frame (R55, R114). -/
theorem EmitOk.outLast_eq (hE : EmitOk s) : s.outLast = decide (s.outIndex + 1 = s.heightOut * s.outRowBytes) := by
  obtain ⟨-, hlt, hpos, -⟩ := hE
  rw [Bool.eq_iff_iff, s.outLast_iff, decide_eq_true_iff]
  constructor
  · rintro ⟨hend, hlast⟩
    rw [← State.outIndex_rowEnd hend, hlast]
  · intro hall
    have hle : s.heightOut * s.outRowBytes ≤ (s.outRows.toNat + 1) * s.outRowBytes :=
      hall ▸ streamIndex_lt (Nat.lt_succ_self _) hpos
    have hlast : s.outRows.toNat + 1 = s.heightOut := Nat.le_antisymm hlt (Nat.le_of_mul_le_mul_right hle (by omega))
    rw [← hlast, Nat.succ_mul, State.outIndex] at hall
    exact ⟨by omega, hlast⟩

/-- EMIT presents the next byte of the output frame, with its LAST (R55, R114). -/
theorem RowsFromImage.exec_outBeat (hrows : RowsFromImage img s) (h : Inv s) (hs : s.runState = .emit) :
    exec .outBeat s = .next (advanceOut { s with
      outStream := s.outStream ++ [outputBeat img s.width s.height s.lanes s.outIndex] }) := by
  have hE := h.emit hs
  obtain ⟨d, hd, hread⟩ := hE.presented
  obtain ⟨hf, -, hpos, -⟩ := h.emit hs
  obtain ⟨hj, hc⟩ := slot_bounds hpos hf.lanes_bounds.1
  cases hd.symm.trans (hrows.rowOut hs hE hj hc)
  have hrow : s.outIndex / s.outRowBytes = s.outRows.toNat := streamIndex_div hpos
  have hplace : s.outIndex % s.outRowBytes = s.outPos.toNat := streamIndex_mod hpos
  have hlane : s.outIndex % s.lanes = s.outPos.toNat % s.lanes := streamIndex_lane _ s.widthOut _ _
  have hbeat : outputBeat img s.width s.height s.lanes s.outIndex = ⟨boxFilter img s.width s.height s.lanes s.outRows.toNat
      (pixelOf s.outPos.toNat s.lanes) (laneOf s.outPos.toNat s.lanes), s.outLast⟩ := by
    rw [hE.outLast_eq, pixelOf, laneOf, ← hlane, ← hplace, ← hrow]
    rfl
  rw [hbeat]
  exact exec_outBeat_emit hs hread

/-- A frame of the image `img` on its way: the bytes taken so far and those its run still owes are together `goal`. -/
structure FrameDriven (img : Nat → Byte) (goal : List Beat) (s : State) : Prop where
  inv : Inv s
  rows : RowsFromImage img s
  running : busyFlag s.runState = true ∨ s.runState = .done
  stream : s.outStream ++
    (outputFrame img s.width s.height s.lanes).drop (s.heightOut * s.outRowBytes - s.outputLeft) = goal

variable {goal : List Beat}

/-- An accepted byte of the image keeps the frame on its way. -/
theorem FrameDriven.acquire (h : FrameDriven img goal s) (ha : Acquired (img s.inIndex) s t) (hinv : Inv t) :
    FrameDriven img goal t := by
  have hrows := ha.rowsFromImage h.inv h.rows
  obtain ⟨-, howed⟩ := ha.pays h.inv
  have hstream := h.stream
  rw [← howed] at hstream
  cases ha with
  | insideA hs _ | insideB hs _ => exact ⟨hinv, hrows, by simp [hs, busyFlag], hstream⟩
  | pairFirst _ _ _ | selfPaired _ _ _ _ | pairSecond _ _ _ => exact ⟨hinv, hrows, .inl rfl, hstream⟩

/-- A taken byte keeps the frame on its way. -/
theorem FrameDriven.take (h : FrameDriven img goal s) (hs : s.runState = .emit) :
    ∃ t, exec .outBeat s = .next t ∧ FrameDriven img goal t ∧ t.outputLeft + 1 = s.outputLeft ∧
      t.inputLeft = s.inputLeft := by
  obtain ⟨-, hlt, hpos, -⟩ := h.inv.emit hs
  have hinside : s.outIndex < s.heightOut * s.outRowBytes := streamIndex_lt hlt hpos
  have hleft := State.outputLeft_emit hs
  generalize hout : s.outStream ++ [outputBeat img s.width s.height s.lanes s.outIndex] = out
  have htaken : exec .outBeat s = .next (advanceOut { s with outStream := out }) := hout ▸ h.rows.exec_outBeat h.inv hs
  have hinv : Inv { s with outStream := out } := h.inv.ports _ _ _ _ _
  have hrows : RowsFromImage img { s with outStream := out } := ⟨h.rows.acqA, h.rows.acqB, h.rows.emit⟩
  obtain ⟨howed, hin⟩ := hinv.advance_pays hs
  replace howed : (advanceOut { s with outStream := out }).outputLeft + 1 = s.outputLeft := howed
  obtain ⟨run, self, rows, ipos, opos, ht, hrun⟩ := advanceOut_take_frame hs out
  refine ⟨_, htaken, ⟨hinv.advance hs, hrows.advance hs, ?_, ?_⟩, howed, hin⟩
  · rw [ht]
    rcases hrun with rfl | rfl | rfl <;> simp [busyFlag]
  · have hplace : s.heightOut * s.outRowBytes - (advanceOut { s with outStream := out }).outputLeft = s.outIndex + 1 := by
      omega
    have hnow : s.heightOut * s.outRowBytes - s.outputLeft = s.outIndex := by omega
    have hstream := h.stream
    rw [hnow, outputFrame_drop hinside, List.append_cons, hout] at hstream
    rw [ht] at hplace ⊢
    exact hplace ▸ hstream

/-- The host's beat in a run state pays one byte of the frame (R106, R149). -/
theorem FrameDriven.beat (h : FrameDriven img goal s) (hs : busyFlag s.runState = true) :
    ∃ t, exec (if s.inReady then .inBeat (img s.inIndex) false else .outBeat) s = .next t ∧
      FrameDriven img goal t ∧ t.inputLeft + t.outputLeft + 1 = s.inputLeft + s.outputLeft := by
  cases hready : s.inReady with
  | true =>
    obtain ⟨t, ht, ha⟩ := h.inv.acquires (s.inReady_iff.1 hready) (img s.inIndex) (truncates_false s)
    obtain ⟨hin, hout⟩ := ha.pays h.inv
    exact ⟨t, ht, h.acquire ha (h.inv.of_exec ht), by omega⟩
  | false =>
    have hemit : s.runState = .emit := by
      have hnot := s.inReady_iff.not.1 (by simp [hready])
      cases hrun : s.runState <;> simp_all [busyFlag]
    obtain ⟨t, ht, hdriven, hout, hin⟩ := h.take hemit
    exact ⟨t, ht, hdriven, by omega⟩

/-- In DONE the whole output frame has been taken (R106, R114). -/
theorem FrameDriven.finished (h : FrameDriven img goal s) (hs : s.runState = .done) : s.outStream = goal := by
  have hstream := h.stream
  obtain ⟨-, hnone⟩ := State.left_done hs
  have hall : (outputFrame img s.width s.height s.lanes).length = s.heightOut * s.outRowBytes := by
    simp [outputFrame, State.heightOut, State.outRowBytes, State.widthOut]
  rwa [hnone, Nat.sub_zero, ← hall, List.drop_length, List.append_nil] at hstream

/-- Driven for the bytes its run owes, a frame ends in DONE with its output taken (R149). -/
theorem FrameDriven.drive {k : Nat} (h : FrameDriven img goal s) (hk : s.inputLeft + s.outputLeft = k) :
    ∃ t, driveFrame img k s = .next t ∧ t.runState = .done ∧ t.outStream = goal := by
  induction k generalizing s with
  | zero =>
    have hdone : s.runState = .done := h.running.resolve_left fun hs => by
      have hpos := h.inv.outputLeft_pos hs
      omega
    exact ⟨s, rfl, hdone, h.finished hdone⟩
  | succ k ih =>
    have hs : busyFlag s.runState = true := h.running.resolve_right fun hdone => by
      have hnone := State.left_done hdone
      omega
    obtain ⟨t, ht, hdriven, hpaid⟩ := h.beat hs
    obtain ⟨u, hu, hend⟩ := ih hdriven (by omega)
    exact ⟨u, by simp only [driveFrame, ht]; exact hu, hend⟩

end Driving

/-- An accepted START begins at the frame's first byte and leaves the bytes already taken (R117, R119). -/
theorem exec_start_acqA {s a : State} (hs : s.runState = .idle ∨ s.runState = .done) (h : exec .start s = .next a)
    (ha : a.runState = .acqA) :
    a.inRows = 0#16 ∧ a.outRows = 0#16 ∧ a.inPos = 0#18 ∧ a.outStream = s.outStream := by
  rw [exec_start_stopped hs] at h
  cases h
  rcases dispatchFrame_cases s with ⟨-, he⟩ | ⟨_, -, he⟩ <;> rw [he] at ha ⊢
  · exact ⟨rfl, rfl, rfl, rfl⟩
  · cases ha

/-- Settles O58: START begins a frame on its way, which is driven for the bytes it owes. -/
theorem frameOutputIsTheBoxFilter : Obligations.FrameOutputIsTheBoxFilter := by
  intro img s a hs hstart ha hinv
  obtain ⟨hin, hout, hpos, hstream⟩ := exec_start_acqA hs hstart ha
  have hinput : a.inputLeft = a.height * a.rowBytes := by
    rw [State.inputLeft_acquiring (.inl ha), State.inIndex, hin, hpos]
    simp
  have houtput : a.outputLeft = a.heightOut * a.outRowBytes := by
    rw [State.outputLeft_acquiring (.inl ha), hout]
    simp
  have hdriven : FrameDriven img (s.outStream ++ outputFrame img a.width a.height a.lanes) a := by
    refine ⟨hinv.of_exec hstart, ⟨fun _ => ?_, by simp [ha], by simp [ha]⟩, .inl (by rw [ha]; rfl), ?_⟩
    · rw [hpos]
      exact .none
    · rw [houtput, hstream, Nat.sub_self, List.drop_zero]
  refine hdriven.drive ?_
  rw [hinput, houtput, State.rowBytes, State.outRowBytes]
  ring

end Sys2Proof.Machine
end

section
/-! SUPPORT. The decoder as the inverse of the encoder (30_encoding.md R68 to R76): every command word encodes a well-formed
instruction, so each command has one word; the match/mask pairs of R70, the ILLEGAL classes of R72, and CONFIG (R77). -/

namespace Sys2Proof

/-- Settles O1, by the round trip of each row. -/
theorem decodeOfEncodeIsTheInstruction : Obligations.DecodeOfEncodeIsTheInstruction := by
  intro i
  cases i with
  | nop => exact Laws.RoundTrip.nop
  | setFormat bpp imgType => exact Laws.RoundTrip.setFormat bpp imgType
  | setWidth w => exact Laws.RoundTrip.setWidth w
  | setHeight h => exact Laws.RoundTrip.setHeight h
  | start => exact Laws.RoundTrip.start
  | abort => exact Laws.RoundTrip.abort
  | illegal w => exact Laws.RoundTrip.illegal w
  | illegalHigh w => exact Laws.RoundTrip.illegalHigh w
  | rdCmd => exact Laws.RoundTrip.rdCmd
  | rdStatus => exact Laws.RoundTrip.rdStatus
  | rdFormat => exact Laws.RoundTrip.rdFormat
  | rdDim => exact Laws.RoundTrip.rdDim
  | rdOutDim => exact Laws.RoundTrip.rdOutDim
  | rdProgress => exact Laws.RoundTrip.rdProgress
  | rdParam => exact Laws.RoundTrip.rdParam
  | rdRsvd => exact Laws.RoundTrip.rdRsvd
  | wrOther r data => exact Laws.RoundTrip.wrOther r data
  | inBeat data last => exact Laws.RoundTrip.inBeat data last
  | outBeat => exact Laws.RoundTrip.outBeat
  | reset => exact Laws.RoundTrip.reset

/-- A known opcode with its must-be-zero bits zero is the word of one of the six commands (R68, R70). -/
theorem exists_encode_eq_of_isCommandWord {w : Word} (h : isCommandWord w = true) :
    ∃ i : Instr, i.wellFormed = true ∧ encode i = .regWrite (regOffset .cmd) w := by
  have hcz (op : BitVec 4) (hop : (opField w).toNat = op.toNat) (hz : w.extractLsb' 0 28 = 0#28) : wordCZ op = w :=
    wordCZ_of_fields (BitVec.eq_of_toNat_eq hop) hz
  have hci (op : BitVec 4) (hop : (opField w).toNat = op.toNat) (hz : w.extractLsb' 16 12 = 0#12) :
      wordCI op (w.extractLsb' 0 16) = w :=
    wordCI_of_fields (BitVec.eq_of_toNat_eq hop) hz
  unfold isCommandWord at h
  split at h <;> simp only [decide_eq_true_eq, Bool.false_eq_true] at h
  case h_1 hop => exact ⟨.nop, rfl, by rw [encode, hcz 0#4 hop h]⟩
  case h_2 hop => exact ⟨.start, rfl, by rw [encode, hcz 4#4 hop h]⟩
  case h_3 hop => exact ⟨.abort, rfl, by rw [encode, hcz 5#4 hop h]⟩
  case h_4 hop =>
    exact ⟨.setFormat (w.extractLsb' 0 8) (w.extractLsb' 8 8), rfl, by
      rw [encode, wordCF_eq_wordCI, halves_append, hci 1#4 hop h]⟩
  case h_5 hop => exact ⟨.setWidth (w.extractLsb' 0 16), rfl, by rw [encode, hci 2#4 hop h]⟩
  case h_6 hop => exact ⟨.setHeight (w.extractLsb' 0 16), rfl, by rw [encode, hci 3#4 hop h]⟩

/-- A word that carries a well-formed instruction decodes to it (R71). -/
theorem decodeCommand_of_encode {i : Instr} {w : Word} (hwf : i.wellFormed = true)
    (henc : encode i = .regWrite (regOffset .cmd) w) : decodeCommand w = i := by
  have hi : decode (encode i) = .ok i := decodeOfEncodeIsTheInstruction i hwf
  rw [henc, decode_command] at hi
  exact Except.ok.inj hi

/-- What a command word decodes to is well formed and encodes to that word (R71). -/
theorem encode_decodeCommand (w : Word) :
    (decodeCommand w).wellFormed = true ∧ encode (decodeCommand w) = .regWrite (regOffset .cmd) w := by
  cases hm : w.msb with
  | true => simp [decodeCommand_illegalHigh hm, Instr.wellFormed, encode, hm]
  | false =>
    cases hc : isCommandWord w with
    | false => simp [decodeCommand_illegal hm hc, Instr.wellFormed, encode, hm, hc]
    | true =>
      obtain ⟨i, hwf, henc⟩ := exists_encode_eq_of_isCommandWord hc
      rw [decodeCommand_of_encode hwf henc]
      exact ⟨hwf, henc⟩

/-- A read by name is well formed and encodes to its register's offset (R73). -/
theorem encode_readInstr (r : HostReg) :
    (readInstr r).wellFormed = true ∧ encode (readInstr r) = .regRead (regOffset r) := by
  cases r <;> exact ⟨rfl, rfl⟩

/-- Settles O2, port by port; a register access is one at the offset of the register it selects. -/
theorem encodeOfDecodeIsTheTransaction : Obligations.EncodeOfDecodeIsTheTransaction := by
  intro t i h
  cases t with
  | reset | outBeat => cases h; exact ⟨rfl, rfl⟩
  | inBeat v =>
    cases h
    exact ⟨rfl, congrArg Transaction.inBeat (packBeat_unpackBeat v)⟩
  | regRead addr =>
    simp only [decode] at h
    split at h
    · next ha =>
      cases h
      simpa only [regOffset_regAt addr ha] using encode_readInstr (regAt addr)
    · cases h
  | regWrite addr data =>
    simp only [decode, writeInstr] at h
    split_ifs at h with ha hr <;> cases h
    · have haddr := regOffset_regAt addr ha
      rw [hr] at haddr
      simpa only [haddr] using encode_decodeCommand data
    · exact ⟨by simpa [Instr.wellFormed] using hr, by rw [encode, regOffset_regAt addr ha]⟩

/-- A word decodes to a command exactly when it is the command's word (R71). -/
theorem decodeCommand_eq_iff {i : Instr} {v : Word} (hwf : i.wellFormed = true)
    (henc : encode i = .regWrite (regOffset .cmd) v) (w : Word) : decodeCommand w = i ↔ w = v := by
  constructor
  · rintro rfl
    rw [(encode_decodeCommand w).2] at henc
    injection henc
  · rintro rfl
    exact decodeCommand_of_encode hwf henc

/-! The fields of a word as parts of its number. -/

theorem opField_toNat (w : Word) : (opField w).toNat = w.toNat / 2 ^ 28 := by
  rw [opField, BitVec.extractLsb'_toNat, Nat.shiftRight_eq_div_pow]
  omega

theorem bits27_0_eq_zero_iff (w : Word) : w.extractLsb' 0 28 = 0#28 ↔ w.toNat % 2 ^ 28 = 0 := by
  rw [← BitVec.toNat_inj, BitVec.extractLsb'_toNat]
  rfl

theorem bits27_16_eq_zero_iff (w : Word) : w.extractLsb' 16 12 = 0#12 ↔ w.toNat / 2 ^ 16 % 2 ^ 12 = 0 := by
  rw [← BitVec.toNat_inj, BitVec.extractLsb'_toNat, Nat.shiftRight_eq_div_pow]
  rfl

/-- The mask of the CI and CF rows drops the operand and keeps the rest (R70). -/
theorem wordCI_and_mask (op : BitVec 4) (v : Half) : wordCI op v &&& 0xFFFF0000#32 = wordCI op 0#16 := by
  have hmask : 0xFFFF0000#32 = BitVec.allOnes 16 ++ 0#16 := by decide
  have hword (u : Half) : wordCI op u = (op ++ 0#12 : BitVec 16) ++ u := rfl
  rw [hmask, hword, hword, BitVec.and_append, BitVec.and_allOnes, BitVec.and_zero]

/-- The mask of the CI and CF rows keeps the opcode (R70). -/
theorem opField_and_mask (w : Word) : opField (w &&& 0xFFFF0000#32) = opField w := by
  rw [opField, BitVec.extractLsb'_and]
  exact BitVec.and_allOnes

/-- The mask of the CI and CF rows keeps the must-be-zero bits (R70). -/
theorem bits27_16_and_mask (w : Word) : (w &&& 0xFFFF0000#32).extractLsb' 16 12 = w.extractLsb' 16 12 := by
  rw [BitVec.extractLsb'_and]
  exact BitVec.and_allOnes

/-- A word is the CI word of `op` and `v` exactly when it matches under the mask and `v` is its low half (R69, R70). -/
theorem eq_wordCI_iff (w : Word) (op : BitVec 4) (v : Half) :
    w = wordCI op v ↔ w &&& 0xFFFF0000#32 = wordCI op 0#16 ∧ v = w.extractLsb' 0 16 := by
  constructor
  · rintro rfl
    exact ⟨wordCI_and_mask op v, (wordCI_low op v).symm⟩
  · rintro ⟨hmatch, rfl⟩
    have hop : opField w = op := by rw [← opField_and_mask, hmatch, opField_wordCI]
    have hmid : w.extractLsb' 16 12 = 0#12 := by rw [← bits27_16_and_mask, hmatch, wordCI_mid]
    exact (wordCI_of_fields hop hmid).symm

/-- A word is SET_FORMAT's exactly when it matches under the mask and the operands are its two low bytes (R69, R70). -/
theorem eq_wordCF_iff (w : Word) (imgType bpp : Byte) :
    w = wordCF imgType bpp ↔
      w &&& 0xFFFF0000#32 = wordCI 1#4 0#16 ∧ bpp = w.extractLsb' 0 8 ∧ imgType = w.extractLsb' 8 8 := by
  constructor
  · rintro rfl
    exact ⟨by rw [wordCF_eq_wordCI, wordCI_and_mask], (wordCF_bpp imgType bpp).symm, (wordCF_imgType imgType bpp).symm⟩
  · rintro ⟨hmatch, rfl, rfl⟩
    rw [wordCF_eq_wordCI, halves_append]
    exact (eq_wordCI_iff w 1#4 _).2 ⟨hmatch, rfl⟩

/-- The words that are none of the six commands: the three classes of R72. -/
theorem isCommandWord_eq_false_iff (w : Word) :
    isCommandWord w = false ↔
      6 ≤ w.toNat / 2 ^ 28 ∨
      ((w.toNat / 2 ^ 28 = 0 ∨ w.toNat / 2 ^ 28 = 4 ∨ w.toNat / 2 ^ 28 = 5) ∧ w.toNat % 2 ^ 28 ≠ 0) ∨
      ((w.toNat / 2 ^ 28 = 1 ∨ w.toNat / 2 ^ 28 = 2 ∨ w.toNat / 2 ^ 28 = 3) ∧ w.toNat / 2 ^ 16 % 2 ^ 12 ≠ 0) := by
  unfold isCommandWord
  simp only [opField_toNat, bits27_0_eq_zero_iff, bits27_16_eq_zero_iff]
  split
  case h_7 h0 h4 h5 h1 h2 h3 =>
    rw [imp_false] at h0 h1 h2 h3 h4 h5
    simp only [true_iff]
    omega
  all_goals
    simp only [decide_eq_false_iff_not]
    omega

/-- The ILLEGAL words are those that are none of the six commands (R71, R72). -/
theorem decodeCommand_illegal_iff (w : Word) :
    (decodeCommand w = .illegal w ∨ decodeCommand w = .illegalHigh w) ↔ isCommandWord w = false := by
  cases hm : w.msb with
  | true =>
    have hop : 8 ≤ w.toNat / 2 ^ 28 := by
      rw [← opField_toNat]
      by_contra hlt
      simp [(opField_lt_eight_iff w).1 (by omega)] at hm
    have hnone : isCommandWord w = false := (isCommandWord_eq_false_iff w).2 (.inl (by omega))
    simp [hnone, decodeCommand_illegalHigh hm]
  | false =>
    refine ⟨fun h => ?_, fun hc => .inl (decodeCommand_illegal hm hc)⟩
    have hwf := (encode_decodeCommand w).1
    rcases h with h | h <;> rw [h] at hwf
    · simpa [Instr.wellFormed, hm] using hwf
    · simp [Instr.wellFormed, hm] at hwf

/-- Settles O3, from the one word of each command; the ILLEGAL clause is a class of R72. -/
theorem commandWordsMatchTheirMasks : Obligations.CommandWordsMatchTheirMasks := by
  intro w
  have hall : w &&& 0xFFFFFFFF#32 = w := BitVec.and_allOnes
  rw [hall]
  refine ⟨decodeCommand_eq_iff rfl rfl w, decodeCommand_eq_iff rfl rfl w, decodeCommand_eq_iff rfl rfl w,
    fun bpp imgType => ?_, fun v => ?_, fun v => ?_, fun hop => ?_⟩
  · rw [decodeCommand_eq_iff rfl rfl w, eq_wordCF_iff]
    rfl
  · rw [decodeCommand_eq_iff rfl rfl w, eq_wordCI_iff]
    rfl
  · rw [decodeCommand_eq_iff rfl rfl w, eq_wordCI_iff]
    rfl
  · exact (decodeCommand_illegal_iff w).2 ((isCommandWord_eq_false_iff w).2 (.inl hop))

end Sys2Proof

namespace Sys2Proof.Machine

/-- Settles O4: the classes of R72 are the words of no command, and both ILLEGAL rows have one effect (R85). -/
theorem reservedAndMalformedWordsRaiseIllegalCommand : Obligations.ReservedAndMalformedWordsRaiseIllegalCommand := by
  intro w
  refine ⟨by rw [decodeCommand_illegal_iff, isCommandWord_eq_false_iff], fun s i hi => ?_⟩
  have hexec : exec i s = .next (illegalWord s) := by rcases hi with rfl | rfl <;> rfl
  rw [hexec]
  rcases illegalWord_cases s with ⟨hs, he⟩ | ⟨hs, he⟩ <;> rw [he]
  · exact ⟨fun _ => rfl, fun hne => absurd hs hne⟩
  · exact ⟨fun herr => absurd herr hs, fun _ => rfl⟩

/-- Settles O5, by evaluation. -/
theorem sampleWordsDecodeAsTabled : Obligations.SampleWordsDecodeAsTabled := by
  unfold Obligations.SampleWordsDecodeAsTabled
  decide

/-- An encoded event runs as its meaning. -/
theorem runTransaction_encode {i : Instr} (hwf : i.wellFormed = true) (s : State) :
    runTransaction (encode i) s = exec i s :=
  runTransaction_of_decode (decodeOfEncodeIsTheInstruction i hwf) s

/-- A command that a run forbids and an error ignores takes effect in IDLE and DONE (R78). -/
theorem whenStopped_stopped {s : State} (hs : s.runState = .idle ∨ s.runState = .done) (f : State → State) :
    whenStopped f s = f s := by
  rcases hs with hs | hs <;> simp [whenStopped, hs]

/-- CONFIG in IDLE or DONE writes the four configuration registers and nothing else (R77, R80 to R82). -/
theorem runTransactions_config {s : State} (hs : s.runState = .idle ∨ s.runState = .done) (bpp imgType : Byte)
    (w h : Half) : runTransactions (HostLine.expand (.config bpp imgType w h)) s =
      .next { s with cfgBpp := bpp, cfgType := imgType, cfgWidth := w, cfgHeight := h } := by
  simp only [HostLine.expand, runTransactions, runTransaction_encode (i := .setFormat bpp imgType) rfl,
    runTransaction_encode (i := .setWidth w) rfl, runTransaction_encode (i := .setHeight h) rfl, exec,
    execSetFormat, execSetWidth, execSetHeight, whenStopped_stopped, hs]

/-- The five checks of START pass on a supported format that fits (R118). -/
theorem dispatchError_eq_none {s : State} (hreq : requiredType s.cfgBpp = some s.cfgType) (hw : s.cfgWidth ≠ 0#16)
    (hh : s.cfgHeight ≠ 0#16) (hfit : s.cfgWidth ≤ s.maxWidth) : dispatchError s = none := by
  simp [dispatchError, hw, hh, hreq, BitVec.not_lt.2 hfit]

/-- START in IDLE or DONE on a supported format that fits enters ACQ_A at the first row (R119). -/
theorem exec_start_supported {s : State} (hs : s.runState = .idle ∨ s.runState = .done)
    (hreq : requiredType s.cfgBpp = some s.cfgType) (hw : s.cfgWidth ≠ 0#16) (hh : s.cfgHeight ≠ 0#16)
    (hfit : s.cfgWidth ≤ s.maxWidth) :
    exec .start s = .next (enterAcqA { clearRun s with n := laneCount s.cfgBpp }) := by
  have hnone : dispatchError (clearRun s) = none := dispatchError_eq_none hreq hw hh hfit
  rw [exec_start_stopped hs]
  simp only [dispatchFrame, hnone]

/-- The rows of R116's table: the type each depth requires, and its components per pixel. -/
theorem requiredType_of_supported {bpp imgType : Byte} {lanes : BitVec 3}
    (h : (bpp, imgType, lanes) ∈ [(8#8, 3#8, 1#3), (16#8, 3#8, 2#3), (24#8, 2#8, 3#3), (32#8, 2#8, 4#3)]) :
    requiredType bpp = some imgType ∧ laneCount bpp = lanes := by
  simp only [List.mem_cons, Prod.mk.injEq, List.not_mem_nil, or_false] at h
  rcases h with ⟨rfl, rfl, rfl⟩ | ⟨rfl, rfl, rfl⟩ | ⟨rfl, rfl, rfl⟩ | ⟨rfl, rfl, rfl⟩ <;> decide

/-- Settles O60: CONFIG writes the format, and START's checks pass on it. -/
theorem configThenStartDispatches : Obligations.ConfigThenStartDispatches := by
  intro s bpp imgType lanes w h hs hformat hw hh hfit
  obtain ⟨hreq, hlanes⟩ := requiredType_of_supported hformat
  rw [runTransactions_append_next (runTransactions_config hs bpp imgType w h), HostLine.expand, runTransactions_single,
    runTransaction_encode rfl]
  refine ⟨_, exec_start_supported hs hreq hw hh hfit, rfl, hlanes, rfl, rfl, ?_, rfl, rfl⟩
  have hone : 0 + 1 = h.toNat ↔ h = 1#16 := by
    rw [← BitVec.toNat_inj]
    exact eq_comm
  exact decide_eq_decide.2 hone

end Sys2Proof.Machine
end

section
/-! SUPPORT. The commands in every state (40_commands.md R78 to R86) with the words that carry them (R69, R70), how a START
ends on the corner values of the dimensions (R118, R119), and the register reads (R87 to R94). -/

namespace Sys2Proof

/-- A CI word is its opcode's word with the operand in the low half (R69). -/
theorem wordCI_eq_or (op : BitVec 4) (imm : Half) : wordCI op imm = wordCI op 0#16 ||| imm.setWidth 32 := by
  apply BitVec.eq_of_getLsbD_eq
  intro i hi
  rw [BitVec.getLsbD_or, BitVec.getLsbD_setWidth, wordCI_bit, wordCI_bit]
  by_cases hlow : i < 16
  · simp [hlow, hi]
  · simp [hlow, BitVec.getLsbD_of_ge imm i (by omega)]

/-- SET_FORMAT's word: BPP in the low byte, TYPE in the next (R69). -/
theorem wordCF_eq_or (imgType bpp : Byte) :
    wordCF imgType bpp = 0x10000000#32 ||| imgType.setWidth 32 <<< 8 ||| bpp.setWidth 32 := by
  have hbytes : (imgType ++ bpp : Half).setWidth 32 = imgType.setWidth 32 <<< 8 ||| bpp.setWidth 32 := by
    apply BitVec.eq_of_getLsbD_eq
    intro i hi
    rw [BitVec.getLsbD_setWidth, BitVec.getLsbD_append]
    simp
    grind
  rw [wordCF_eq_wordCI, wordCI_eq_or, hbytes, BitVec.or_assoc]
  rfl

/-- A word of OP 0 other than the zero word is malformed (R72, R79). -/
theorem decodeCommand_op_zero {w : Word} (hop : w.toNat / 2 ^ 28 = 0) (hw : w ≠ 0#32) : decodeCommand w = .illegal w := by
  have hlow : w.toNat % 2 ^ 28 ≠ 0 := fun h => hw (BitVec.eq_of_toNat_eq (show w.toNat = 0 by omega))
  have hmsb : w.msb = false := (opField_lt_eight_iff w).1 (by rw [opField_toNat, hop]; decide)
  exact decodeCommand_illegal hmsb ((isCommandWord_eq_false_iff w).2 (.inr (.inl ⟨.inl hop, hlow⟩)))

/-- An aligned write off 0x00 is an ignored write to the register it names (R73, R86). -/
theorem decode_regWrite_off_cmd {addr : Offset} (halign : addr.toNat % 4 = 0) (haddr : addr ≠ 0x00#5) (data : Word) :
    decode (.regWrite addr data) = .ok (.wrOther (regAt addr) data) := by
  have haligned : aligned addr = true := by
    rw [← Bool.not_eq_false, aligned_eq_false_iff, not_not]
    exact halign
  have hoff := regOffset_regAt addr haligned
  have hreg : regAt addr ≠ .cmd := fun h => haddr (by rw [← hoff, h]; rfl)
  conv_lhs => rw [← hoff]
  exact decode_otherWrite hreg data

end Sys2Proof

namespace Sys2Proof.Machine

/-- Settles O7: the zero word is NOP's alone, and every aligned write off 0x00 is an ignored write. -/
theorem nopAndOtherWritesChangeNothing : Obligations.NopAndOtherWritesChangeNothing :=
  ⟨decodeOfEncodeIsTheInstruction .nop rfl, fun _ => decodeCommand_op_zero, fun _ => rfl, fun _ _ _ => rfl,
    fun s _ data halign haddr => runTransaction_of_decode (decode_regWrite_off_cmd halign haddr data) s⟩

/-- What R78 says in each state of a command that runs as `whenStopped`. -/
theorem exec_of_whenStopped {i : Instr} {s : State} {f : State → State} (h : exec i s = .next (whenStopped f s)) :
    (s.runState = .error → exec i s = .next s) ∧
    (s.runState = .acqA ∨ s.runState = .acqB ∨ s.runState = .emit →
      exec i s = .next { s with runState := .error, errCode := .illegalCommand }) ∧
    (s.runState = .idle ∨ s.runState = .done → exec i s = .next (f s)) := by
  rw [h]
  refine ⟨fun hs => by simp only [whenStopped, hs], fun hs => ?_, fun hs => by rw [whenStopped_stopped hs]⟩
  have hbusy : busyFlag s.runState = true := by rcases hs with hs | hs | hs <;> rw [hs] <;> rfl
  rw [whenStopped_busy f hbusy]
  rfl

/-- Settles O8, by R78's cases and SET_FORMAT's word. -/
theorem setFormatInEveryState : Obligations.SetFormatInEveryState := by
  intro s bpp imgType
  obtain ⟨herror, hrun, hstop⟩ := exec_of_whenStopped (i := .setFormat bpp imgType) (s := s) rfl
  rw [← wordCF_eq_or]
  exact ⟨decodeOfEncodeIsTheInstruction (.setFormat bpp imgType) rfl, herror, hrun, hstop⟩

/-- Settles O13, by R78's cases. -/
theorem startOutsideIdleAndDone : Obligations.StartOutsideIdleAndDone := by
  intro s
  obtain ⟨herror, hrun, -⟩ := exec_of_whenStopped (i := .start) (s := s) rfl
  exact ⟨herror, hrun⟩

/-- Settles O14: ABORT's one effect, field by field. -/
theorem abortReturnsToIdle : Obligations.AbortReturnsToIdle := fun _ => rfl

/-- The first two checks of START: a dimension of zero (R118). -/
theorem dispatchError_zero {s : State} (h : s.cfgWidth = 0#16 ∨ s.cfgHeight = 0#16) :
    dispatchError s = some .badInputFormat := by
  unfold dispatchError
  by_cases hw : s.cfgWidth = 0#16
  · rw [if_pos hw]
  · rw [if_neg hw, if_pos (h.resolve_left hw)]

/-- A width past MAX_WIDTH fails a format check, its own if no earlier one (R118). -/
theorem dispatchError_wide {s : State} (hw : s.maxWidth < s.cfgWidth) (hh : s.cfgHeight ≠ 0#16) :
    dispatchError s = some .unsupportedInputFormat := by
  have hne : s.cfgWidth ≠ 0#16 := fun h => by simp [h] at hw
  cases hreq : requiredType s.cfgBpp <;> simp [dispatchError, hne, hh, hreq, hw]

/-- An accepted START whose checks fail enters ERROR with their code (R83, R118). -/
theorem exec_start_fails {s : State} {code : ErrCode} (hs : s.runState = .idle ∨ s.runState = .done)
    (hcheck : dispatchError s = some code) : ∃ u, exec .start s = .next u ∧ u.runState = .error ∧ u.errCode = code := by
  have hclear : dispatchError (clearRun s) = some code := hcheck
  refine ⟨_, exec_start_stopped hs, ?_⟩
  simp [dispatchFrame, hclear]

/-- A dispatched frame's first row is its own pair exactly when it is the only one (R25, R119). -/
theorem exec_start_selfPair {s u : State} (hs : s.runState = .idle ∨ s.runState = .done) (h : exec .start s = .next u)
    (hu : u.runState = .acqA) : u.selfPair = true ↔ s.cfgHeight = 1#16 := by
  rw [exec_start_stopped hs] at h
  cases h
  rcases dispatchFrame_cases s with ⟨-, he⟩ | ⟨_, -, he⟩ <;> rw [he] at hu ⊢
  · rw [decide_eq_true_iff, eq_comm, ← BitVec.toNat_inj]
    rfl
  · cases hu

/-- OUT_DIM's two halves are the halved dimensions (R40). -/
theorem outDimWord_halves (s : State) :
    (outDimWord s).toNat % 2 ^ 16 = (s.cfgWidth.toNat + 1) / 2 ∧
    (outDimWord s).toNat / 2 ^ 16 = (s.cfgHeight.toNat + 1) / 2 := by
  obtain ⟨v, hread, hhalves⟩ := readOutDimShowsTheHalvedDimensions s
  cases hread
  exact hhalves

/-- Settles O9, by R78's cases, SET_WIDTH's word and the checks that a zero and an over-wide width fail. -/
theorem setWidthInEveryState : Obligations.SetWidthInEveryState := by
  intro s w
  obtain ⟨herror, hrun, hstop⟩ := exec_of_whenStopped (i := .setWidth w) (s := s) rfl
  have hword : 0x20000000#32 ||| w.setWidth 32 = wordCI 0x2#4 w := (wordCI_eq_or 0x2#4 w).symm
  rw [hword]
  refine ⟨decodeOfEncodeIsTheInstruction (.setWidth w) rfl, herror, hrun, fun hs => ⟨hstop hs, ?_, ?_, ?_⟩⟩
  · exact (outDimWord_halves _).1
  · exact fun hw => exec_start_fails hs (dispatchError_zero (.inl hw))
  · exact fun hw hh => exec_start_fails hs (dispatchError_wide hw hh)

/-- Settles O10, by R78's cases, SET_HEIGHT's word, the check that a zero height fails and the pairing of a lone row. -/
theorem setHeightInEveryState : Obligations.SetHeightInEveryState := by
  intro s h
  obtain ⟨herror, hrun, hstop⟩ := exec_of_whenStopped (i := .setHeight h) (s := s) rfl
  have hword : 0x30000000#32 ||| h.setWidth 32 = wordCI 0x3#4 h := (wordCI_eq_or 0x3#4 h).symm
  rw [hword]
  refine ⟨decodeOfEncodeIsTheInstruction (.setHeight h) rfl, herror, hrun, fun hs => ⟨hstop hs, ?_, ?_, ?_⟩⟩
  · exact (outDimWord_halves _).2
  · exact fun hh => exec_start_fails hs (dispatchError_zero (.inr hh))
  · exact fun _ => exec_start_selfPair (s := { s with cfgHeight := h }) hs

/-- A field under zeros is the same number (R38, R42). -/
theorem toNat_zero_append {m n : Nat} (v : BitVec n) : (0#m ++ v).toNat = v.toNat := by
  rw [toNat_append_add, BitVec.toNat_zero, Nat.zero_mul, Nat.zero_add]

/-- FORMAT is TYPE above BPP (R38). -/
theorem formatWord_toNat (s : State) : (formatWord s).toNat = s.cfgType.toNat * 2 ^ 8 + s.cfgBpp.toNat := by
  have hword : (formatWord s).toNat = (0#16 ++ s.cfgType).toNat * 2 ^ 8 + s.cfgBpp.toNat := toNat_append_add _ _
  rw [hword, toNat_zero_append]

/-- Settles O18: each read answers its register's word, whose fields add up. -/
theorem registerReadsShowTheirFields : Obligations.RegisterReadsShowTheirFields := fun s =>
  ⟨formatWord s, dimWord s, progressWord s, paramWord s,
    exec_readInstr .cmd s, exec_readInstr .rsvd s,
    exec_readInstr .format s, formatWord_toNat s,
    exec_readInstr .dim s, toNat_append_add _ _,
    exec_readInstr .progress s, toNat_append_add _ _,
    exec_readInstr .param s, toNat_zero_append _, rfl⟩

end Sys2Proof.Machine
end

section
/-! SUPPORT. Row acquisition as a debt of bytes (41_row_acquisition.md R100 to R106, R149): which marked byte truncates the
frame, what the last byte of a row pair leaves, and every beat of a driven frame as one byte paid until DONE. -/

namespace Sys2Proof.Machine

section Acquisition

variable {s t : State} {d : Byte} {last : Bool}

/-- Only a marked byte before the frame's end truncates it (R103). -/
theorem truncates_iff (last : Bool) (s : State) :
    truncates last s = true ↔ last = true ∧ ¬ (s.inRows.toNat + 1 = s.height ∧ s.inPos.toNat + 1 = s.rowBytes) := by
  rw [not_and_or]
  simp [truncates, State.atFrameEnd, State.onLastRow, State.atRowEnd]

/-- A row's last byte that is marked only in the frame's last row does not truncate (R103). -/
theorem truncates_rowEnd (hend : s.inPos.toNat + 1 = s.rowBytes) (hlast : last = true → s.inRows.toNat + 1 = s.height) :
    truncates last s = false := by
  rw [← Bool.not_eq_true, truncates_iff]
  exact fun ⟨hmarked, hearly⟩ => hearly ⟨hlast hmarked, hend⟩

/-- A truncating byte is not stored: error entry is all that happens (R103). -/
theorem exec_inBeat_truncating (hs : s.runState = .acqA ∨ s.runState = .acqB) (htr : truncates last s = true) :
    exec (.inBeat d last) s = .next (raiseError .badInputFormat s) := by
  rcases hs with hs | hs <;> simp [exec, execInBeat, hs, htr]

/-- A byte that does not truncate is stored in the buffer of its row, and storing never enters ERROR (R100, R102). -/
theorem exec_inBeat_not_error (hs : s.runState = .acqA ∨ s.runState = .acqB) (htr : truncates last s = false)
    (h : exec (.inBeat d last) s = .next t) : t.runState ≠ .error := by
  rcases hs with hs | hs
  · have hstore : storeInA d s = .ok t := outcomeOf_next (by simpa [exec, execInBeat, hs, htr] using h)
    obtain ⟨_, _, _, _, _, _, rfl, rfl | rfl | rfl⟩ := storeInA_frame hstore hs <;> simp
  · have hstore : storeInB d s = .ok t := outcomeOf_next (by simpa [exec, execInBeat, hs, htr] using h)
    obtain ⟨_, _, _, _, _, _, rfl, rfl | rfl⟩ := storeInB_frame hstore hs <;> simp

/-- An input beat that does not end in ERROR was accepted (R100, R103). -/
theorem Inv.acquired_of_exec (h : Inv s) (hs : s.runState = .acqA ∨ s.runState = .acqB)
    (hexec : exec (.inBeat d last) s = .next t) (ht : t.runState ≠ .error) : Acquired d s t := by
  cases htr : truncates last s with
  | true =>
    cases (exec_inBeat_truncating hs htr).symm.trans hexec
    exact absurd rfl ht
  | false =>
    obtain ⟨u, hu, ha⟩ := h.acquires hs d htr
    cases hu.symm.trans hexec
    exact ha

/-- An accepted byte leaves the block in a run state, with no byte taken (R100). -/
theorem Acquired.running (ha : Acquired d s t) : busyFlag t.runState = true ∧ t.outStream = s.outStream := by
  cases ha with
  | insideA hs _ | insideB hs _ => exact ⟨by simp [hs, busyFlag], rfl⟩
  | pairFirst _ _ _ | selfPaired _ _ _ _ | pairSecond _ _ _ => exact ⟨rfl, rfl⟩

/-- Settles O22: the two kinds of beat, by whether it truncates. -/
theorem earlyLastRaisesBadInputFormat : Obligations.EarlyLastRaisesBadInputFormat :=
  fun s _ hs => ⟨fun hearly => exec_inBeat_truncating hs ((truncates_iff true s).2 ⟨rfl, hearly⟩),
    fun _ => exec_inBeat_not_error hs (truncates_false s)⟩

/-- Settles O25: RowComplete of a self-paired row, and the average of a row with itself. -/
theorem selfPairedRowIsReducedAgainstItself : Obligations.SelfPairedRowIsReducedAgainstItself := by
  intro s d last h hs hend hself
  have htr : truncates last s = false := truncates_rowEnd hend fun _ => (h.acqA hs).selfPair_iff.1 hself
  obtain ⟨hf, -, -, hpos, -, hbytes⟩ := h.acqA hs
  obtain ⟨row, out, hpad, hstore, -, -, hframe, -⟩ := storeInA_self hf hpos (s.atRowEnd_iff.2 hend) hself hbytes d
  obtain ⟨hstored, hcopy, hkeep⟩ := hbytes.read_padded hf hend hpad
  have hexec := exec_inBeat_acqA hs htr hstore
  have hE := (h.of_exec hexec).emit rfl
  have hsecond : (enterEmit { s with rowA := row, inRows := s.inRows + 1#16, rowOut := out }).secondRow = row := by
    simp [State.secondRow, hself]
  refine ⟨row, out, _, hexec, (h.acquiring_format (.inl hs)).2, hstored, hcopy, hkeep, fun k hk c hc => ?_, hframe⟩
  obtain ⟨p, q, r, u, hp, hq, hr, hu, ho⟩ := hE.samples hk hc
  rw [hsecond] at hr hu
  cases hp.symm.trans hr
  cases hq.symm.trans hu
  exact ⟨p, q, _, hp, hq, ho, by rw [avg4_toNat]; omega⟩

/-- Settles O26: RowComplete of a pair's second row, and the samples of the rows held. -/
theorem secondRowCompletesAndReducesThePair : Obligations.SecondRowCompletesAndReducesThePair := by
  intro s d last h hs hend hlast
  have htr : truncates last s = false := truncates_rowEnd hend hlast
  obtain ⟨hf, -, -, hpos, hself, hdone, hbytes⟩ := h.acqB hs
  obtain ⟨row, out, hpad, hstore, -, -, hframe, -⟩ := storeInB_end hf hpos (s.atRowEnd_iff.2 hend) hdone hbytes d
  obtain ⟨hstored, hcopy, hkeep⟩ := hbytes.read_padded hf hend hpad
  have hexec := exec_inBeat_acqB hs htr hstore
  have hE := (h.of_exec hexec).emit rfl
  have hsecond : (enterEmit { s with rowB := row, inRows := s.inRows + 1#16, rowOut := out }).secondRow = row := by
    simp [State.secondRow, hself]
  refine ⟨row, out, _, hexec, (h.acquiring_format (.inr hs)).2, hstored, hcopy, hkeep, fun k hk c hc => ?_, hframe⟩
  obtain ⟨p, q, r, u, hp, hq, hr, hu, ho⟩ := hE.samples hk hc
  rw [hsecond] at hr hu
  exact ⟨p, q, r, u, _, hp, hq, hr, hu, ho, avg4_toNat p q r u⟩

end Acquisition

section Debt

variable {s t : State}

/-- Settles O55: START leaves every counter zero. -/
theorem startOwesTheWholeFrame : Obligations.StartOwesTheWholeFrame := by
  intro s t hs hstart ht
  obtain ⟨hin, hout, hpos, -⟩ := exec_start_acqA hs hstart ht
  rw [State.inputLeft_acquiring (.inl ht), State.outputLeft_acquiring (.inl ht), State.inIndex, hin, hout, hpos,
    State.rowBytes, State.outRowBytes]
  simp only [BitVec.toNat_ofNat, Nat.zero_mod, Nat.zero_mul, Nat.add_zero, Nat.sub_zero]
  constructor <;> ring

/-- A taken output byte pays one byte of the output owed, and the frame goes on or is done (R106, R114). -/
theorem Inv.take_pays (h : Inv s) (hs : s.runState = .emit) (hexec : exec .outBeat s = .next t) :
    t.outputLeft + 1 = s.outputLeft ∧ t.inputLeft = s.inputLeft ∧ t.outStream.length = s.outStream.length + 1 ∧
      (busyFlag t.runState = true ∨ t.runState = .done) := by
  obtain ⟨d, -, hread⟩ := (h.emit hs).presented
  cases (exec_outBeat_emit hs hread).symm.trans hexec
  have hinv : Inv { s with outStream := s.outStream ++ [⟨d, s.outLast⟩] } := h.ports _ _ _ _ _
  obtain ⟨howed, hin⟩ := hinv.advance_pays hs
  obtain ⟨_, _, _, _, _, he, hrun⟩ := advanceOut_take_frame hs (s.outStream ++ [⟨d, s.outLast⟩])
  refine ⟨howed, hin, ?_, ?_⟩
  · rw [he]
    exact List.length_append
  · rw [he]
    rcases hrun with rfl | rfl | rfl <;> simp [busyFlag]

/-- Settles O56: what an accepted byte pays, what a taken byte pays, and that DONE owes nothing. -/
theorem beatsPayTheFrameByteByByte : Obligations.BeatsPayTheFrameByteByByte := by
  refine ⟨fun s t d last h hs hexec ht => (h.acquired_of_exec hs hexec ht).pays h, fun s t h hs hexec => ?_⟩
  obtain ⟨hout, hin, -⟩ := h.take_pays hs hexec
  exact ⟨hout, hin, State.left_done⟩

/-- The run state that takes no input presents output (R34). -/
theorem State.emit_of_busy (hs : busyFlag s.runState = true) (hready : s.inReady = false) : s.runState = .emit := by
  cases hrun : s.runState with
  | emit => rfl
  | acqA | acqB => simp [State.inReady, hrun] at hready
  | idle | done | error => simp [busyFlag, hrun] at hs

/-- The beat that the host of R149 makes in a run state pays one byte; what it takes is output no longer owed. -/
theorem Inv.driven_beat_pays (h : Inv s) (hs : busyFlag s.runState = true) (b : Byte) :
    ∃ t, exec (if s.inReady then .inBeat b false else .outBeat) s = .next t ∧
      (busyFlag t.runState = true ∨ t.runState = .done) ∧
      t.inputLeft + t.outputLeft + 1 = s.inputLeft + s.outputLeft ∧
      t.outStream.length + t.outputLeft = s.outStream.length + s.outputLeft := by
  cases hready : s.inReady with
  | true =>
    obtain ⟨t, ht, ha⟩ := h.acquires (s.inReady_iff.1 hready) b (truncates_false s)
    obtain ⟨hin, hout⟩ := ha.pays h
    obtain ⟨hrun, htaken⟩ := ha.running
    exact ⟨t, ht, .inl hrun, by omega, by rw [htaken, hout]⟩
  | false =>
    obtain ⟨t, ht⟩ := h.execOutBeat_next
    obtain ⟨hout, hin, htaken, hrun⟩ := h.take_pays (State.emit_of_busy hs hready) ht
    exact ⟨t, ht, hrun, by omega, by omega⟩

/-- Driven for the bytes it owes, a frame ends in DONE, having taken the output it owed (R106, R149). -/
theorem Inv.drive_done (img : Nat → Byte) {k : Nat} (h : Inv s) (hrun : busyFlag s.runState = true ∨ s.runState = .done)
    (hk : s.inputLeft + s.outputLeft = k) :
    ∃ t, driveFrame img k s = .next t ∧ t.runState = .done ∧
      t.outStream.length = s.outStream.length + s.outputLeft := by
  induction k generalizing s with
  | zero =>
    have hdone : s.runState = .done := hrun.resolve_left fun hs => by
      have hpos := h.outputLeft_pos hs
      omega
    exact ⟨s, rfl, hdone, by omega⟩
  | succ k ih =>
    have hs : busyFlag s.runState = true := hrun.resolve_right fun hdone => by
      have hnone := State.left_done hdone
      omega
    obtain ⟨t, ht, hrun', hpaid, htaken⟩ := h.driven_beat_pays hs (img s.inIndex)
    obtain ⟨u, hu, hdone, hlen⟩ := ih (h.of_exec ht) hrun' (by omega)
    exact ⟨u, by simp only [driveFrame, ht]; exact hu, hdone, by omega⟩

/-- Settles O57, by induction on the bytes owed, of which each beat pays one. -/
theorem drivenFrameReachesDone : Obligations.DrivenFrameReachesDone :=
  fun img _ h hs => h.drive_done img (.inl hs) rfl

end Debt

end Sys2Proof.Machine
end

section
/-! SUPPORT. The box filter (42_box_filter.md R108 to R114): what a reduction that answers has read and written, an output
beat as a reader of ROW_OUT's lanes below N alone, and the average's rounding. -/

namespace Sys2Proof.Machine

section Reduction

variable {px outPx n k pixels : Nat} {a a' b b' out o : Memory}

/-- A slot read sees no more of the buffer than its slot (R31). -/
theorem readSlot_congr {m m' : Memory} {j c : Nat} (h : m.read (slotAddr j c) = m'.read (slotAddr j c)) :
    readSlot px m j c = readSlot px m' j c := by
  simp only [readSlot, h]

/-- Component c of an output pixel comes from lane c of the two rows (R110). -/
theorem reduceSlot_congr {c : Nat} (ha : ∀ j, a.read (slotAddr j c) = a'.read (slotAddr j c))
    (hb : ∀ j, b.read (slotAddr j c) = b'.read (slotAddr j c)) :
    reduceSlot px a b k c = reduceSlot px a' b' k c := by
  simp only [reduceSlot, readSlot_congr (ha _), readSlot_congr (hb _)]

/-- One step of the inner loop that answers: the pixel so far, and component n written over it (R108). -/
theorem reducePixel_succ_eq_ok (h : reducePixel px outPx a b k (n + 1) out = .ok o) :
    ∃ o₁ v, reducePixel px outPx a b k n out = .ok o₁ ∧ reduceSlot px a b k n = .ok v ∧ n < 4 ∧
      o = o₁.write (slotAddr k n) v := by
  simp only [reducePixel, bind, Except.bind] at h
  cases hpixel : reducePixel px outPx a b k n out with
  | error f => simp [hpixel] at h
  | ok o₁ =>
    cases hslot : reduceSlot px a b k n with
    | error f => simp [hpixel, hslot] at h
    | ok v =>
      simp only [hpixel, hslot] at h
      obtain ⟨-, hn, ho⟩ := writeSlot_eq_ok.1 h
      exact ⟨o₁, v, rfl, rfl, hn, ho⟩

/-- One step of the outer loop that answers: the pixels so far, and pixel k (R108). -/
theorem reduceRows_succ_eq_ok (h : reduceRows px outPx a b n (k + 1) out = .ok o) :
    ∃ o₁, reduceRows px outPx a b n k out = .ok o₁ ∧ reducePixel px outPx a b k n o₁ = .ok o := by
  simp only [reduceRows, bind, Except.bind] at h
  cases hrows : reduceRows px outPx a b n k out with
  | error f => simp [hrows] at h
  | ok o₁ => exact ⟨o₁, rfl, by simpa only [hrows] using h⟩

/-- What a pixel's reduction that answers has written: its first n components, of the 4 there are, and nothing else (R108). -/
theorem reducePixel_reads (h : reducePixel px outPx a b k n out = .ok o) :
    n ≤ 4 ∧ (∀ c < n, o.read (slotAddr k c) = (reduceSlot px a b k c).toOption) ∧
      ∀ x, ¬ (x / 4 = k ∧ x % 4 < n) → o.read x = out.read x := by
  induction n generalizing o with
  | zero => cases h; simp
  | succ n ih =>
    obtain ⟨o₁, v, hpixel, hslot, hn, rfl⟩ := reducePixel_succ_eq_ok h
    obtain ⟨-, hwritten, hkept⟩ := ih hpixel
    refine ⟨hn, fun c hc => ?_, fun x hx => ?_⟩
    · by_cases hcn : c = n
      · rw [hcn, Memory.read_write_same, hslot]
        rfl
      · rw [Memory.read_write_other _ _ (by unfold slotAddr; omega), hwritten c (by omega)]
    · rw [Memory.read_write_other _ _ (by unfold slotAddr; omega), hkept x (by omega)]

/-- What a reduction that answers has written: the first n components of the first output pixels, and nothing else (R108). -/
theorem reduceRows_reads (h : reduceRows px outPx a b n pixels out = .ok o) :
    (∀ k < pixels, ∀ c < n, o.read (slotAddr k c) = (reduceSlot px a b k c).toOption) ∧
      ∀ x, ¬ (x / 4 < pixels ∧ x % 4 < n) → o.read x = out.read x := by
  induction pixels generalizing o with
  | zero => cases h; simp
  | succ p ih =>
    obtain ⟨o₁, hrows, hpixel⟩ := reduceRows_succ_eq_ok h
    obtain ⟨hearlier, hkept⟩ := ih hrows
    obtain ⟨hn, hwritten, hkept'⟩ := reducePixel_reads hpixel
    refine ⟨fun k hk c hc => ?_, fun x hx => ?_⟩
    · by_cases hkp : k = p
      · subst hkp
        exact hwritten c hc
      · rw [hkept' _ (by unfold slotAddr; omega), hearlier k (by omega) c hc]
    · rw [hkept' x (by omega), hkept x (by omega)]

end Reduction

section Emission

variable {s t : State} {d : Byte} {out : Memory}

/-- The state with another content of ROW_OUT. -/
def withRowOut (out : Memory) (s : State) : State := { s with rowOut := out }

/-- Advancing the output neither reads nor writes ROW_OUT (R114). -/
theorem advanceOut_withRowOut (s : State) (out : Memory) :
    advanceOut (withRowOut out s) = withRowOut out (advanceOut s) := by
  simp only [advanceOut, apply_ite (withRowOut out)]
  rfl

/-- An output beat reads one slot of ROW_OUT: a content that agrees there changes nothing else (R114). -/
theorem exec_outBeat_withRowOut (hs : s.runState = .emit)
    (hd : readSlot s.outPixels s.rowOut (pixelOf s.outPos.toNat s.lanes) (laneOf s.outPos.toNat s.lanes) = .ok d)
    (hsame : out.read (slotAddr (pixelOf s.outPos.toNat s.lanes) (laneOf s.outPos.toNat s.lanes)) =
      s.rowOut.read (slotAddr (pixelOf s.outPos.toNat s.lanes) (laneOf s.outPos.toNat s.lanes)))
    (ht : exec .outBeat s = .next t) : exec .outBeat (withRowOut out s) = .next (withRowOut out t) := by
  cases (exec_outBeat_emit hs hd).symm.trans ht
  rw [← advanceOut_withRowOut]
  exact exec_outBeat_emit (s := withRowOut out s) hs ((readSlot_congr hsame).trans hd)

/-- The component of the presented byte is one of the frame's N (R114). -/
theorem FormatOk.laneOf_lt (hf : FormatOk s) (pos : Nat) : laneOf pos s.lanes < s.lanes :=
  Nat.mod_lt _ hf.lanes_bounds.1

/-- Settles O30: what a reduction has written is a function of lane c alone, and the presented byte's lane is below N. -/
theorem lanesAreIndependent : Obligations.LanesAreIndependent := by
  refine ⟨fun px outPx lanes pixels c a b out o a' b' out' o' hc h h' ha hb k hk => ?_,
    fun px outPx lanes pixels c k a b out o hc hc4 h => ?_, fun s out h hs hsame => ?_⟩
  · obtain ⟨hwritten, -⟩ := reduceRows_reads h
    obtain ⟨hwritten', -⟩ := reduceRows_reads h'
    rw [hwritten k hk c hc, hwritten' k hk c hc, reduceSlot_congr ha hb]
  · obtain ⟨-, hkept⟩ := reduceRows_reads h
    refine hkept _ fun ⟨_, hlane⟩ => ?_
    rw [slotAddr_mod hc4] at hlane
    omega
  · obtain ⟨hf, -⟩ := h.emit hs
    obtain ⟨d, hd, hread⟩ := (h.emit hs).presented
    have hslot := hsame (pixelOf s.outPos.toNat s.lanes) _ (hf.laneOf_lt s.outPos.toNat)
    obtain ⟨_, _, _, _, _, htaken, -⟩ := advanceOut_take_frame hs (s.outStream ++ [⟨d, s.outLast⟩])
    have hbeat := exec_outBeat_emit hs hread
    refine ⟨_, hbeat, exec_outBeat_withRowOut hs hread hslot hbeat, ⟨_, by rw [htaken]⟩, ?_⟩
    exact (portsOut_outData (s := withRowOut out s) hs (hslot.trans hd)).trans (portsOut_outData hs hd).symm

end Emission

section Average

/-- Settles O28: the biased sum's quarter, by the residue of the sum. -/
theorem averageRoundsToNearestTiesUp : Obligations.AverageRoundsToNearestTiesUp := by
  intro p q r s sum
  have havg : (avg4 p q r s).toNat = (sum + 2) / 4 := avg4_toNat p q r s
  refine ⟨havg, ?_⟩
  rw [havg]
  split <;> omega

/-- Settles O29: the rounded quarter of a sum is the rounded half when each sample stands in it twice (R111 to R113). -/
theorem averageOfRepeatedSamples : Obligations.AverageOfRepeatedSamples := by
  intro a b
  refine ⟨BitVec.eq_of_toNat_eq ?_, ?_, ?_⟩
  · rw [avg4_toNat]
    omega
  · rw [avg4_toNat]
    omega
  · rw [avg4_toNat]
    omega

end Average

end Sys2Proof.Machine
end

section
/-! SUPPORT. How an accepted START ends (43_dispatch.md R116 to R120): which check fails first, and the whole next state of the
two ends. -/

namespace Sys2Proof.Machine

/-- A depth with a required type is in R116's table, and the type is the one the table gives it. -/
theorem requiredType_some {bpp imgType : Byte} (h : requiredType bpp = some imgType) :
    bpp ∈ [8#8, 16#8, 24#8, 32#8] ∧ imgType = if bpp = 8#8 ∨ bpp = 16#8 then 3#8 else 2#8 := by
  simp only [List.mem_cons, List.not_mem_nil, or_false]
  unfold requiredType at h
  split at h
  · next hgray =>
    cases h
    exact ⟨hgray.elim .inl fun h => .inr (.inl h), (if_pos hgray).symm⟩
  · next hgray =>
    split at h
    · next hcolour =>
      cases h
      exact ⟨.inr (.inr hcolour), (if_neg hgray).symm⟩
    · cases h

/-- The third and fourth checks of START: a format that is no row of R116's table (R118). -/
theorem dispatchError_format {s : State} (hw : s.cfgWidth ≠ 0#16) (hh : s.cfgHeight ≠ 0#16)
    (hformat : requiredType s.cfgBpp ≠ some s.cfgType) : dispatchError s = some .unsupportedInputFormat := by
  unfold dispatchError
  rw [if_neg hw, if_neg hh]
  split
  · rfl
  · next required hreq =>
    rw [if_pos]
    rintro rfl
    exact hformat hreq

/-- An accepted START whose checks fail clears the run state and enters ERROR with their code (R117, R118). -/
theorem exec_start_raises {s : State} {code : ErrCode} (hs : s.runState = .idle ∨ s.runState = .done)
    (hcheck : dispatchError s = some code) : exec .start s = .next (raiseError code (clearRun s)) := by
  have hclear : dispatchError (clearRun s) = some code := hcheck
  rw [exec_start_stopped hs]
  simp only [dispatchFrame, hclear]

/-- SELF_PAIR's entry value at a frame's first row: the frame has no second one (R25, R119). -/
theorem clearRun_onLastRow (s : State) : (clearRun s).onLastRow = decide (s.cfgHeight = 1#16) :=
  decide_eq_decide.2 (eq_comm.trans (BitVec.toNat_inj (x := s.cfgHeight) (y := 1#16)))

/-- Settles O11: a row of R116's table passes the checks, and ACQ_A's entry action takes SELF_PAIR from H. -/
theorem startDispatchesSupportedFrames : Obligations.StartDispatchesSupportedFrames := by
  intro s lanes hs hw hh hfit hformat
  obtain ⟨hreq, rfl⟩ := requiredType_of_supported hformat
  rw [exec_start_supported hs hreq hw hh hfit, ← clearRun_onLastRow]
  rfl

/-- Settles O12: the code of each check in R118's order, from the lemma for the first check that fails. -/
theorem startRaisesTheFirstFailingCheck : Obligations.StartRaisesTheFirstFailingCheck := by
  intro s code hs hchain
  refine exec_start_raises hs ?_
  by_cases hw : s.cfgWidth = 0#16
  · rw [if_pos hw] at hchain
    rw [hchain, dispatchError_zero (.inl hw)]
  rw [if_neg hw] at hchain
  by_cases hh : s.cfgHeight = 0#16
  · rw [if_pos hh] at hchain
    rw [hchain, dispatchError_zero (.inr hh)]
  rw [if_neg hh] at hchain
  by_cases hbpp : s.cfgBpp ∉ [8#8, 16#8, 24#8, 32#8]
  · rw [if_pos hbpp] at hchain
    rw [hchain, dispatchError_format hw hh fun h => hbpp (requiredType_some h).1]
  rw [if_neg hbpp] at hchain
  by_cases htype : s.cfgType ≠ if s.cfgBpp = 8#8 ∨ s.cfgBpp = 16#8 then 3#8 else 2#8
  · rw [if_pos htype] at hchain
    rw [hchain, dispatchError_format hw hh fun h => htype (requiredType_some h).2]
  rw [if_neg htype] at hchain
  obtain ⟨hwide, rfl⟩ := hchain
  exact dispatchError_wide hwide hh

end Sys2Proof.Machine
end

section
/-! SUPPORT. The one exception of the block (60_exceptions.md R123, R125, R126): the three ways into ERROR, and what an event
does there (R128). -/

namespace Sys2Proof.Machine

/-- Why an event raises ILLEGAL_COMMAND: it is an ILLEGAL word, or a command that a run forbids (R78, R85). -/
def IsRejected (i : Instr) (s : State) : Prop :=
  (∃ w, i = .illegal w ∨ i = .illegalHigh w) ∨
    ((s.runState = .acqA ∨ s.runState = .acqB ∨ s.runState = .emit) ∧
      ((∃ bpp imgType, i = .setFormat bpp imgType) ∨ (∃ w, i = .setWidth w) ∨ (∃ h, i = .setHeight h) ∨ i = .start))

/-- The ways an event i takes s into ERROR, each with the state it leaves (R123). -/
inductive ErrorEntry (i : Instr) (s : State) : State → Prop
  /-- A check of an accepted START fails, after its clearing. -/
  | failedStart (code : ErrCode) : i = .start → (s.runState = .idle ∨ s.runState = .done) → dispatchError s = some code →
      ErrorEntry i s (raiseError code (clearRun s))
  /-- An input byte is marked last before the frame's end. -/
  | truncated (d : Byte) : i = .inBeat d true → s.atFrameEnd = false → ErrorEntry i s (raiseError .badInputFormat s)
  | rejected : IsRejected i s → ErrorEntry i s (raiseError .illegalCommand s)

/-- Every event that enters ERROR does so in one of the three ways (R123). -/
theorem exec_errorEntry {i : Instr} {s t : State} (hs : s.runState ≠ .error) (h : exec i s = .next t)
    (ht : t.runState = .error) : ErrorEntry i s t := by
  cases exec_cases h with
  | unchanged | answered _ | configured _ _ _ _ _ _ => exact absurd ht hs
  | aborted _ | resetted _ => simp at ht
  | started hi hstop =>
    rcases dispatchFrame_cases s with ⟨-, he⟩ | ⟨code, hcheck, he⟩
    · simp [he] at ht
    · rw [he]
      exact .failedStart code hi hstop hcheck
  | rejected _ hcause => exact .rejected hcause
  | truncated d hi _ hearly => exact .truncated d hi hearly
  | storedA d last _ hi htr hacq _ =>
    subst hi
    exact absurd ht (exec_inBeat_not_error (.inl hacq) htr h)
  | storedB d last _ hi htr hacq _ =>
    subst hi
    exact absurd ht (exec_inBeat_not_error (.inr hacq) htr h)
  | taken d _ hemit _ =>
    obtain ⟨_, _, _, _, _, he, rfl | rfl | rfl⟩ :=
      advanceOut_take_frame hemit (s.outStream ++ [{ data := d, last := s.outLast }]) <;> simp [he] at ht

/-- ERROR offers no stream handshake (R34, R126). -/
theorem portsOut_error {s : State} (hs : s.runState = .error) (rst : Bool) :
    (portsOut rst s).inReady = false ∧ (portsOut rst s).outValid = false := by
  simp [portsOut, State.inReady, State.outValid, hs]

/-- Settles O35: the state each way into ERROR leaves, none with ERR_CODE 0. -/
theorem errorsArePrecise : Obligations.ErrorsArePrecise := by
  intro s t i hs h ht
  have hports := portsOut_error ht false
  cases exec_errorEntry hs h ht with
  | failedStart code hi hstop hcheck =>
    refine ⟨.inr ⟨hi, hstop, rfl⟩, ?_, hports⟩
    rcases dispatchError_some hcheck with rfl | rfl <;> simp
  | truncated _ _ _ | rejected _ => exact ⟨.inl rfl, by simp, hports⟩

/-- The checks behind each code of START: a dimension of zero, or else an unsupported format or width (R118, R123). -/
theorem dispatchError_cause {s : State} {code : ErrCode} (h : dispatchError s = some code) :
    (code = .badInputFormat ∧ (s.cfgWidth = 0#16 ∨ s.cfgHeight = 0#16)) ∨
    (code = .unsupportedInputFormat ∧
      (requiredType s.cfgBpp ≠ some s.cfgType ∨ s.maxWidth.toNat < s.cfgWidth.toNat)) := by
  by_cases hzero : s.cfgWidth = 0#16 ∨ s.cfgHeight = 0#16
  · exact .inl ⟨Option.some.inj (h.symm.trans (dispatchError_zero hzero)), hzero⟩
  obtain ⟨hw, hh⟩ := not_or.1 hzero
  refine .inr ?_
  by_cases hformat : requiredType s.cfgBpp = some s.cfgType
  · by_cases hwide : s.maxWidth < s.cfgWidth
    · exact ⟨Option.some.inj (h.symm.trans (dispatchError_wide hwide hh)), .inr hwide⟩
    · cases h.symm.trans (dispatchError_eq_none hformat hw hh (BitVec.not_lt.1 hwide))
  · exact ⟨Option.some.inj (h.symm.trans (dispatchError_format hw hh hformat)), .inl hformat⟩

/-- Settles O37: the code and the cause of each way into ERROR, START's by the check that failed. -/
theorem errorCodesAndTheirCauses : Obligations.ErrorCodesAndTheirCauses := by
  intro s t i hs h ht
  cases exec_errorEntry hs h ht with
  | failedStart code hi _ hcheck =>
    rcases dispatchError_cause hcheck with ⟨hcode, hzero⟩ | ⟨hcode, hunsupported⟩
    · exact .inl ⟨hcode, .inl ⟨hi, hzero, rfl, rfl, rfl⟩⟩
    · exact .inr (.inl ⟨hcode, hi, rfl, rfl, rfl, .inr hunsupported⟩)
  | truncated d hi hearly => exact .inl ⟨rfl, .inr ⟨d, hi, hearly, rfl, rfl, rfl⟩⟩
  | rejected hcause => exact .inr (.inr ⟨rfl, rfl, rfl, rfl, rfl, hcause⟩)

/-- In ERROR every event but ABORT and reset leaves at most a read's answer (R60, R128). -/
theorem exec_in_error {s : State} (hs : s.runState = .error) {i : Instr} (habort : i ≠ .abort) (hreset : i ≠ .reset) :
    ∃ resp, exec i s = .next { s with readResp := resp } := by
  cases i with
  | abort => exact absurd rfl habort
  | reset => exact absurd rfl hreset
  | nop | wrOther _ _ => exact ⟨s.readResp, rfl⟩
  | rdCmd | rdStatus | rdFormat | rdDim | rdOutDim | rdProgress | rdParam | rdRsvd => exact ⟨_, rfl⟩
  | setFormat _ _ | setWidth _ | setHeight _ | start => exact ⟨s.readResp, (exec_of_whenStopped rfl).1 hs⟩
  | illegal w => exact ⟨s.readResp, ((reservedAndMalformedWordsRaiseIllegalCommand w).2 s _ (.inl rfl)).1 hs⟩
  | illegalHigh w => exact ⟨s.readResp, ((reservedAndMalformedWordsRaiseIllegalCommand w).2 s _ (.inr rfl)).1 hs⟩
  | inBeat d last => exact ⟨s.readResp, execInBeat_waits (by simp [hs]) (by simp [hs]) d last⟩
  | outBeat => exact ⟨s.readResp, execOutBeat_waits (by simp [hs])⟩

/-- Settles O36: the ignored events, then the fields ABORT and reset write. -/
theorem errorIsLeftOnlyByAbortAndReset : Obligations.ErrorIsLeftOnlyByAbortAndReset :=
  fun s hs => ⟨fun _ => exec_in_error hs, ⟨abandonFrame s, rfl, rfl, rfl, rfl, rfl, rfl, rfl⟩,
    ⟨resetBlock s, rfl, rfl, rfl, rfl, rfl, rfl, rfl⟩⟩

end Sys2Proof.Machine
end

section
/-! SUPPORT. Reset (70_reset_and_hazards.md R137): what it leaves, and the handshakes withheld while `rst` is 1. -/

namespace Sys2Proof.Machine

/-- While `rst` is 1 the block offers no handshake (R62, R137). -/
theorem portsOut_rst (s : State) : (portsOut true s).inReady = false ∧ (portsOut true s).outValid = false := by
  simp [portsOut]

/-- Settles O15: the fields of `resetBlock`, the two levels that `rst` gates, and O46's edge with the reset alone, whose result
is that of the reset run after the edge is counted. -/
theorem resetGivesTheResetValues : Obligations.ResetGivesTheResetValues := by
  intro s
  obtain ⟨hready, hvalid⟩ := portsOut_rst s
  refine ⟨rfl, hready, hvalid, fun p rest hp hrst => ?_⟩
  obtain ⟨hresetAlone, -⟩ := edgeEventsTakeEffectInOrder s s p rest
  exact hresetAlone hrst hp

end Sys2Proof.Machine
end
